-- ==== Sys2Proof/Word.lean ====
section
/-! DEFINITION. The word types of the frame block (spec 00_scope.md R7, R8): bytes, 16-bit values, slot numbers. -/

namespace Sys2Proof

/-- A byte, an unsigned integer in 0 to 255 (R7, R8). -/
abbrev Byte := BitVec 8

/-- A 16-bit unsigned value: a checksum (R7, R98) or a request header (R73). -/
abbrev Half := BitVec 16

/-- The 4-bit slot field of a request header (R73). Which of its values name a slot is `Config.nslot`'s to say. -/
abbrev SlotIx := BitVec 4

end Sys2Proof
end

