-- ==== Sys2Proof/Config.lean ====
section
/-! DEFINITION. The parameters of the hardware (spec 00_scope.md R6, 10_state.md R27), as one record with the
spec's default values, and the two OPEN parameters that no rule reads. -/

namespace Sys2Proof

/-- The implementation parameters of R6. They are fixed when the hardware is built and no operation changes them (R27). -/
structure Config where
  /-- `MIN_FRAME`: least total frame length in bytes. -/
  minFrame : Nat
  /-- `MAX_FRAME`: greatest total frame length in bytes. -/
  maxFrame : Nat
  /-- `MAX_PARAMS`: greatest parameter count in bytes. -/
  maxParams : Nat
  /-- `CMDSET`: the command byte values accepted (R66). -/
  cmdset : List Byte
  /-- `SYNC_RTS`: sentinel written by request-to-send (R69). -/
  syncRts : Byte
  /-- `ACK_RTS`: sentinel expected by request-to-send (R69). -/
  ackRts : Byte
  /-- `SYNC_RTR`: sentinel expected by ready-to-receive (R69). -/
  syncRtr : Byte
  /-- `ACK_RTR`: sentinel written by ready-to-receive (R69). -/
  ackRtr : Byte
  /-- `GET_VERSION`: command of VERSION_REQUEST (R96). -/
  getVersion : Byte
  /-- `CONNECTION`: command of TEST_REQUEST (R97). -/
  connection : Byte
  /-- `TEST_PARAMS`: parameters of TEST_REQUEST (R97). -/
  testParams : List Byte
  /-- `NSLOT`: number of frame slots (R20). -/
  nslot : Nat
  /-- `PARSE_CHECK_COMMAND`: whether the parser rejects a command outside `CMDSET` (R124). -/
  parseCheckCommand : Bool
deriving DecidableEq, Repr

/-- The values of R6 (the source's where it gives one, else the spec's decided default). -/
def Config.default : Config where
  minFrame := 4
  maxFrame := 255
  maxParams := 251
  cmdset := [0x01, 0x02, 0x03, 0x06, 0x07, 0x08, 0x09, 0x0A, 0x0B, 0x0C, 0x0D, 0x0E, 0x0F, 0x20, 0x21]
  syncRts := 0x55
  ackRts := 0xAA
  syncRtr := 0xA5
  ackRtr := 0x5A
  getVersion := 0x03
  connection := 0x01
  testParams := [0x05, 0x0A]
  nslot := 2
  parseCheckCommand := false

/-- What every rule assumes of the parameters. The layout of R60 has four bytes beside the parameters, so `MIN_FRAME` is 4
(R61); `MAX_FRAME = MAX_PARAMS + MIN_FRAME` (R6); a length fits the one length byte (R7, R62); `NSLOT` is 1 to 16 (R6, R20);
the two builders cannot fail (R96, R97). -/
structure Config.Wf (c : Config) : Prop where
  minFrame : c.minFrame = 4
  identity : c.maxFrame = c.maxParams + c.minFrame
  lengthByte : c.maxFrame ≤ 255
  slotsLow : 1 ≤ c.nslot
  slotsHigh : c.nslot ≤ 16
  getVersion : c.getVersion ∈ c.cmdset
  connection : c.connection ∈ c.cmdset
  testParams : c.testParams.length ≤ c.maxParams

/-- OPEN parameter `SIGNAL_IF` (92_eei_decisions.md D1): the signal-level interface, which no rule reads. -/
opaque Config.signalIf : Nat

/-- OPEN parameter `LINE_FORMAT` (92_eei_decisions.md D17): the bit-level format of the line, which no rule reads. -/
opaque Config.lineFormat : Nat

end Sys2Proof
end

