-- ==== Sys2Proof/Syntax.lean ====
section
/-! DEFINITION. The instructions: one constructor per row of spec/opcode_table.json (30_encoding.md R72, R74, R66, R69, R77),
and the form in which an instruction is presented to the block. -/

namespace Sys2Proof

/-- One constructor per row of the opcode table. Slot operands are the 4-bit field of R73; byte sequences are of any
length (92_eei_decisions.md D19). -/
inductive Instr where
  -- the thirteen primary operations (R72)
  | new (d : SlotIx) (cmd : Byte) (params : List Byte)
  | fromBytes (d : SlotIx) (raw : List Byte)
  | command (src : SlotIx)
  | setCommand (src : SlotIx) (cmd : Byte)
  | parameters (src : SlotIx)
  | setParameters (src : SlotIx) (params : List Byte)
  | checksum (src : SlotIx)
  | recomputeChecksum (src : SlotIx)
  | toBytes (src : SlotIx)
  | rts
  | rtr
  | txFrame (src : SlotIx)
  | rxFrame (d : SlotIx)
  -- the four pseudo-operations (R74)
  | versionRequest (d : SlotIx)
  | testRequest (d : SlotIx)
  | sendFrame (src : SlotIx)
  | recvFrame (d : SlotIx)
  -- the seventeen command names (R66), 0x08 and 0x0F carrying two names each (R67)
  | connection
  | selectRf
  | getVersion
  | iso15693Inventory
  | iso15693Access
  | iso14443aAccess
  | mifareUlAccess
  | iso14443aInventory
  | stInventory
  | stAccess
  | iso14443bInventory
  | iso14443bAccess
  | felicaInventory
  | topazInventory
  | topazAccess
  | setTarget
  | setInitiator
  -- the four handshake sentinels (R69)
  | syncRts
  | ackRts
  | syncRtr
  | ackRtr
deriving DecidableEq, Repr

/-- What is presented to the block's decoder.
`header`: a request of R73, a 16-bit header and the byte sequence that follows it (empty where none follows).
`joined`: the two request headers, in order, of a pseudo-operation whose table row has two (R74, R77).
`wire`: one byte of the wire, matched by the table's last two groups of rows (R77). -/
inductive Request where
  | header (h : Half) (operand : List Byte)
  | joined (first second : Half)
  | wire (b : Byte)
deriving DecidableEq, Repr

/-- The slot operand of an instruction, where its format uses the slot field (R73). -/
def Instr.slot? : Instr → Option SlotIx
  | .new d _ _ | .fromBytes d _ | .rxFrame d | .versionRequest d | .testRequest d | .recvFrame d => some d
  | .command q | .setCommand q _ | .parameters q | .setParameters q _ | .checksum q | .recomputeChecksum q
  | .toBytes q | .txFrame q | .sendFrame q => some q
  | .rts | .rtr => none
  | .connection | .selectRf | .getVersion | .iso15693Inventory | .iso15693Access | .iso14443aAccess
  | .mifareUlAccess | .iso14443aInventory | .stInventory | .stAccess | .iso14443bInventory | .iso14443bAccess
  | .felicaInventory | .topazInventory | .topazAccess | .setTarget | .setInitiator => none
  | .syncRts | .ackRts | .syncRtr | .ackRtr => none

end Sys2Proof
end

