-- ==== Sys2Proof/WellFormed.lean ====
section
/-! DEFINITION. Which instructions exist on a block with given parameters: a slot operand names one of the `NSLOT` slots
(10_state.md R20, 30_encoding.md R73). Byte operands and byte sequences have no bound (92_eei_decisions.md D19). -/

namespace Sys2Proof

/-- The slot number is below `NSLOT` (R73). -/
def slotExists (c : Config) (d : SlotIx) : Bool := decide (d.toNat < c.nslot)

/-- An instruction of a block with parameters `c`: its slot operand, if its format has one, exists. -/
def Instr.wellFormed (c : Config) (i : Instr) : Bool :=
  match i.slot? with
  | some d => slotExists c d
  | none => true

end Sys2Proof
end

