-- ==== Sys2Proof/Decode.lean ====
section
/-! DEFINITION. The request decoder (30_encoding.md R72, R73, R74, R77), total, rejecting by name; after it the encoder,
written from the same tables, and the decoder on opcode-table words. -/

namespace Sys2Proof

/-- Why what is presented selects no instruction. -/
inductive Reject where
  /-- A header whose `op` is 0xD, 0xE or 0xF (R73). -/
  | unusedCode (op : BitVec 4)
  /-- A header whose format uses `slot` and whose slot is `NSLOT` or more (R73). -/
  | slotOutOfRange (slot : SlotIx)
  /-- Two headers that are not the two of SEND_FRAME or of RECV_FRAME (R74). -/
  | notAPair (first second : Half)
  /-- A wire byte that no row of the table's last two groups matches (R66, R69, R77). -/
  | strayByte (b : Byte)
deriving DecidableEq, Repr

/-- Header bits 15:12 (R73). -/
def opField (h : Half) : BitVec 4 := h.extractLsb' 12 4

/-- Header bits 11:8 (R73). -/
def slotField (h : Half) : SlotIx := h.extractLsb' 8 4

/-- Header bits 7:0 (R73). -/
def cmdField (h : Half) : Byte := h.extractLsb' 0 8

/-- The thirteen selection codes of R72. A field the format does not use is ignored, and so is a byte sequence after a
header whose format has none (R73). -/
def decodeHeader (h : Half) (operand : List Byte) : Except Reject Instr :=
  match (opField h).toNat with
  | 0x0 => .ok (.new (slotField h) (cmdField h) operand)
  | 0x1 => .ok (.fromBytes (slotField h) operand)
  | 0x2 => .ok (.command (slotField h))
  | 0x3 => .ok (.setCommand (slotField h) (cmdField h))
  | 0x4 => .ok (.parameters (slotField h))
  | 0x5 => .ok (.setParameters (slotField h) operand)
  | 0x6 => .ok (.checksum (slotField h))
  | 0x7 => .ok (.recomputeChecksum (slotField h))
  | 0x8 => .ok (.toBytes (slotField h))
  | 0x9 => .ok .rts
  | 0xA => .ok .rtr
  | 0xB => .ok (.txFrame (slotField h))
  | 0xC => .ok (.rxFrame (slotField h))
  | _ => .error (.unusedCode (opField h))

/-- The two pairs of headers of R74: RTS then TX_FRAME s is SEND_FRAME s, RTR then RX_FRAME d is RECV_FRAME d. -/
def decodePair (first second : Half) : Except Reject Instr :=
  match (opField first).toNat, (opField second).toNat with
  | 0x9, 0xB => .ok (.sendFrame (slotField second))
  | 0xA, 0xC => .ok (.recvFrame (slotField second))
  | _, _ => .error (.notAPair first second)

/-- The wire rows of R66 and R69 in the table's order, each with its byte: the parameter of R6 where R6 has one for it, else the
value of R66. A value with two names (0x08, 0x0F) is under the name the table lists first: a name is not recoverable from a
frame (R67). -/
def wireRows (c : Config) : List (Byte × Instr) :=
  [(c.connection, .connection), (0x02, .selectRf), (c.getVersion, .getVersion), (0x06, .iso15693Inventory),
   (0x07, .iso15693Access), (0x08, .iso14443aAccess), (0x09, .iso14443aInventory), (0x0A, .stInventory), (0x0B, .stAccess),
   (0x0C, .iso14443bInventory), (0x0D, .iso14443bAccess), (0x0E, .felicaInventory), (0x0F, .topazInventory),
   (0x20, .setTarget), (0x21, .setInitiator)]
  ++ [(c.syncRts, .syncRts), (c.ackRts, .ackRts), (c.syncRtr, .syncRtr), (c.ackRtr, .ackRtr)]

/-- A wire byte is the first row that has it, matched on the whole byte (R77). With the default parameters no two rows share a
byte; where parameters make two of them share one, that the first is taken is the model's choice (DESIGN CHOICE, assumption
log 25). -/
def decodeWire (c : Config) (b : Byte) : Except Reject Instr :=
  match (wireRows c).find? fun row => row.1 == b with
  | some row => .ok row.2
  | none => .error (.strayByte b)

/-- The instruction the bits select, before its slot number is checked. -/
def decodeBits (c : Config) : Request → Except Reject Instr
  | .header h operand => decodeHeader h operand
  | .joined first second => decodePair first second
  | .wire b => decodeWire c b

/-- A decoded instruction is let through only if the slot it names exists (R73). -/
def checkSlot (c : Config) (i : Instr) : Except Reject Instr :=
  match i.slot? with
  | some d => if slotExists c d then .ok i else .error (.slotOutOfRange d)
  | none => .ok i

/-- The request decoder of a block with parameters `c`. -/
def decode (c : Config) (r : Request) : Except Reject Instr :=
  match decodeBits c r with
  | .ok i => checkSlot c i
  | .error e => .error e

/-- A request header from its three fields (R73). -/
def packHeader (op : BitVec 4) (slot : SlotIx) (cmd : Byte) : Half := (op ++ slot) ++ cmd

/-- The words of an instruction. A pseudo-operation's are those of its expansion (R74), a wire row's is its
byte, the parameter's where R6 has one (R66, R69); bits the format ignores are 0. -/
def encode (c : Config) : Instr → Request
  | .new d cmd p => .header (packHeader 0x0 d cmd) p
  | .fromBytes d raw => .header (packHeader 0x1 d 0) raw
  | .command q => .header (packHeader 0x2 q 0) []
  | .setCommand q cmd => .header (packHeader 0x3 q cmd) []
  | .parameters q => .header (packHeader 0x4 q 0) []
  | .setParameters q p => .header (packHeader 0x5 q 0) p
  | .checksum q => .header (packHeader 0x6 q 0) []
  | .recomputeChecksum q => .header (packHeader 0x7 q 0) []
  | .toBytes q => .header (packHeader 0x8 q 0) []
  | .rts => .header (packHeader 0x9 0 0) []
  | .rtr => .header (packHeader 0xA 0 0) []
  | .txFrame q => .header (packHeader 0xB q 0) []
  | .rxFrame d => .header (packHeader 0xC d 0) []
  | .versionRequest d => .header (packHeader 0x0 d c.getVersion) []
  | .testRequest d => .header (packHeader 0x0 d c.connection) c.testParams
  | .sendFrame q => .joined (packHeader 0x9 0 0) (packHeader 0xB q 0)
  | .recvFrame d => .joined (packHeader 0xA 0 0) (packHeader 0xC d 0)
  | .connection => .wire c.connection
  | .selectRf => .wire 0x02
  | .getVersion => .wire c.getVersion
  | .iso15693Inventory => .wire 0x06
  | .iso15693Access => .wire 0x07
  | .iso14443aAccess => .wire 0x08
  | .mifareUlAccess => .wire 0x08
  | .iso14443aInventory => .wire 0x09
  | .stInventory => .wire 0x0A
  | .stAccess => .wire 0x0B
  | .iso14443bInventory => .wire 0x0C
  | .iso14443bAccess => .wire 0x0D
  | .felicaInventory => .wire 0x0E
  | .topazInventory => .wire 0x0F
  | .topazAccess => .wire 0x0F
  | .setTarget => .wire 0x20
  | .setInitiator => .wire 0x21
  | .syncRts => .wire c.syncRts
  | .ackRts => .wire c.ackRts
  | .syncRtr => .wire c.syncRtr
  | .ackRtr => .wire c.ackRtr

/-- The instruction that the words of `i` decode to: a builder is exactly the NEW it abbreviates (R74, R96, R97), an alias
is the value it names (R67), and every other instruction is its own. -/
def Instr.canonical (c : Config) : Instr → Instr
  | .versionRequest d => .new d c.getVersion []
  | .testRequest d => .new d c.connection c.testParams
  | .mifareUlAccess => .iso14443aAccess
  | .topazAccess => .topazInventory
  | i => i

/-- The byte of a wire row names that row and no earlier one: the rows before `i`'s have other bytes. It holds of every row with
the default parameters, and of every instruction that is no wire row. -/
def Instr.ownByte (c : Config) (i : Instr) : Bool :=
  match encode c i with
  | .wire b => ((wireRows c).takeWhile fun row => row.2 != i.canonical c).all fun row => row.1 != b
  | _ => true

/-- An opcode-table word as the request it is. Rows of 16 bits are headers with an empty byte sequence after them; rows of
32 bits are two headers, the first in bits 31:16 as the table numbers them; rows of 8 bits are wire bytes (R77). -/
def requestOfTableWord (nbits w : Nat) : Option Request :=
  match nbits with
  | 8 => some (.wire (BitVec.ofNat 8 w))
  | 16 => some (.header (BitVec.ofNat 16 w) [])
  | 32 => some (.joined (BitVec.ofNat 16 (w / 65536)) (BitVec.ofNat 16 w))
  | _ => none

/-- The instruction the decoder reads from an opcode-table word, on a block with the default parameters. -/
def decodeTableWord (nbits w : Nat) : Option Instr :=
  match requestOfTableWord nbits w with
  | some r =>
    match decode Config.default r with
    | .ok i => some i
    | .error _ => none
  | none => none

end Sys2Proof
end

