-- ==== Sys2Proof/Machine/State.lean ====
section
/-! DEFINITION. The machine's state as plain data (10_state.md R20 to R33), the ways a step can stop, and the state after
reset (R32). -/

namespace Sys2Proof.Machine

/-- Why a step stops with a fault. The hardware's own errors are outcomes, never faults (60_exceptions.md R160); these two
are the model's, for inputs that are no request of R73. -/
inductive Fault where
  /-- Raised by `step` for two joined headers that are not a pseudo-operation's (R74). Safe: nothing is claimed past it. -/
  | notAPair
  /-- Raised by `step` for a wire byte that no table row matches (R77). Safe: nothing is claimed past it. -/
  | strayByte
deriving DecidableEq, Repr

/-- Why a step gives no meaning. -/
inductive Refusal where
  /-- Raised by `exec` for an instruction that has no meaning yet. Safe. No arm of `exec` raises it. -/
  | notModelled (mnemonic : String)
deriving DecidableEq, Repr

/-- A frame is a byte sequence laid out as in 30_encoding.md R60; its fields are views of its bytes (R21). -/
abbrev Frame := List Byte

/-- The frame slots, the only addressed memory (R29, R46): slot `d` is entry `d`, `none` is `Empty` (R20, R24). -/
abbrev Memory := List (Option Frame)

/-- The handshake state `hs` (R25). -/
inductive Handshake where
  | idle
  | sentSync
  | confirmed
  | failed
deriving DecidableEq, Repr

/-- The ten error kinds, in the order of their codes (60_exceptions.md R161). -/
inductive ErrorKind where
  | invalidCommand
  | tooManyParameters
  | frameTooLong
  | lengthMismatch
  | checksumMismatch
  | handshakeDesync
  | transportShortWrite
  | transportFault
  | slotEmpty
  | illegalOp
deriving DecidableEq, Repr

/-- What an operation with outcome `OK` returns (30_encoding.md R75). -/
inductive Result where
  | none
  | byte (b : Byte)
  | half (c : Half)
  | bytes (l : List Byte)
deriving DecidableEq, Repr

/-- How an operation ends: `OK` with its result, or one error kind and nothing else (00_scope.md R13, 60_exceptions.md R174). -/
inductive Delivery where
  | ok (r : Result)
  | error (k : ErrorKind)
deriving DecidableEq, Repr

/-- The transport's answer to a read of `k` bytes: `k` bytes, or `fault` (20_memory.md R49). -/
inductive ReadAnswer where
  | bytes (l : List Byte)
  | fault
deriving DecidableEq, Repr

/-- One transport event (20_memory.md R50): `W(b) -> c` or `R(k) -> r`. -/
inductive Event where
  | write (b : List Byte) (c : Nat)
  | read (k : Nat) (r : ReadAnswer)
deriving DecidableEq, Repr

/-- What comes next on the transport's inbound stream: a byte, or a stream fault (R49). -/
inductive RxItem where
  | byte (b : Byte)
  | fault
deriving DecidableEq, Repr

/-- The operation in progress and the transport call it waits at (43_link_handshake.md R139, 70_reset_and_hazards.md R195).
In the phases of RTS and RTR, `then?` is the slot whose frame a pseudo-operation transfers after the handshake (R154, R155). -/
inductive Phase where
  /-- No operation is in progress. -/
  | idle
  /-- RTS waits for its write of `SYNC_RTS`. -/
  | rtsWrite (then? : Option SlotIx)
  /-- RTS waits for its read. -/
  | rtsRead (then? : Option SlotIx)
  /-- RTR waits for its read. -/
  | rtrRead (then? : Option SlotIx)
  /-- RTR waits for its write of `ACK_RTR`. -/
  | rtrWrite (then? : Option SlotIx)
  /-- TX_FRAME waits for its write. -/
  | txWrite (src : SlotIx)
  /-- RX_FRAME waits for the length byte. -/
  | rxLength (d : SlotIx)
  /-- RX_FRAME waits for the remaining bytes; the length byte is in the staging buffer. -/
  | rxRest (d : SlotIx)
  /-- The sentinel row SYNC_RTS waits for its write. -/
  | syncRtsWrite
  /-- The sentinel row SYNC_RTR waits for its read. -/
  | syncRtrRead
deriving DecidableEq, Repr

/-- The machine. The first six fields are the block's; `delivered` and `trace` are what an observer has of the run
(70_reset_and_hazards.md R205); `rx`, `tx` and `requests` are what the transport and the host have still to give. -/
structure State where
  /-- The parameters of the block (R6, R27): read by operations, written by none. -/
  cfg : Config
  /-- The frame slots (R20). -/
  slots : Memory
  /-- The handshake state register (R25). -/
  hs : Handshake
  /-- `STATUS`: the outcome code of the last completed operation (R26). -/
  status : BitVec 4
  /-- The staging buffer of RX_FRAME (R30 (c)). -/
  staging : List Byte
  /-- The operation in progress, if any. -/
  phase : Phase
  /-- The outcome and result of each completed operation, oldest first (R13, R160). -/
  delivered : List Delivery
  /-- The transport trace, oldest first (R50). -/
  trace : List Event
  /-- The not-yet-consumed part of the inbound stream, next item first (R30 (a)). -/
  rx : List RxItem
  /-- For each coming write call, how many bytes the transport has room for (R48). -/
  tx : List Nat
  /-- What the host has still to issue, next first (R205). -/
  requests : List Request
deriving DecidableEq, Repr

/-- The machine right after reset (R32), with the default parameters, a transport that has answered nothing and a host that
has issued nothing. -/
def State.reset : State where
  cfg := Config.default
  slots := List.replicate Config.default.nslot none
  hs := .idle
  status := 0
  staging := []
  phase := .idle
  delivered := []
  trace := []
  rx := []
  tx := []
  requests := []

end Sys2Proof.Machine
end

