-- ==== Sys2Proof/Machine/Bytes.lean ====
section
/-! DEFINITION. Byte order, the checksum and the frame format: pure functions on byte sequences (00_scope.md R8 to R10,
20_memory.md R40, 30_encoding.md R60 to R64). -/

namespace Sys2Proof.Machine

/-- `lo8(v) = v mod 256` (R8). -/
def lo8 (v : Half) : Byte := v.extractLsb' 0 8

/-- `hi8(v) = (v div 256) mod 256` (R8). -/
def hi8 (v : Half) : Byte := v.extractLsb' 8 8

/-- `le16(b0, b1) = b0 + 256 * b1` (R8): the low byte comes first (R40). -/
def le16 (b0 b1 : Byte) : Half := b1 ++ b0

/-- `s[a..b]`, the offsets `i` with `a <= i < b` (R9). -/
def slice (l : List Byte) (a b : Nat) : List Byte := (l.take b).drop a

/-- `sum16(s)`: each byte zero-extended to 16 bits, added modulo 65536, the empty sum being 0 (R10, R98). -/
def sum16 : List Byte → Half
  | [] => 0
  | b :: rest => b.zeroExtend 16 + sum16 rest

/-- The byte at offset `i` (R11). Every held frame has the offsets the operations read (R22 I3); in a state that holds a
shorter sequence, which no run reaches, a missing byte reads as 0 (assumption log 16). -/
def byteAt (f : Frame) (i : Nat) : Byte := f.getD i 0

/-- The bytes `f[0..n-2]` that the checksum covers (R63). -/
def summedBytes (f : Frame) : List Byte := slice f 0 (f.length - 2)

/-- The checksum field as a number, `le16(f[n-2], f[n-1])` (R63). -/
def storedChecksum (f : Frame) : Half := le16 (byteAt f (f.length - 2)) (byteAt f (f.length - 1))

/-- The parameters field, `f[2..n-2]` (R60). -/
def paramsOf (f : Frame) : List Byte := slice f 2 (f.length - 2)

/-- A byte sequence followed by the two bytes of its checksum, low byte first (R63). -/
def withChecksum (h : List Byte) : Frame := h ++ [lo8 (sum16 h), hi8 (sum16 h)]

/-- `encode(cmd, P)` (R64): length byte `4 + len(P)` (R62), command, parameters, checksum. -/
def encodeFrame (cmd : Byte) (p : List Byte) : Frame :=
  withChecksum ([BitVec.ofNat 8 (4 + p.length), cmd] ++ p)

/-- Invariants I1, I2 and I3 of a held frame (R22), the limits being the parameters'. -/
def frameOk (c : Config) (f : Frame) : Bool :=
  decide (c.minFrame ≤ f.length) && decide (f.length ≤ c.maxFrame) && decide ((byteAt f 0).toNat = f.length)
    && decide (storedChecksum f = sum16 (summedBytes f))

/-- The canonical form of the slot file: exactly `NSLOT` entries (R20), each `Empty` or a frame that satisfies R22. -/
def Memory.wf (c : Config) (m : Memory) : Bool :=
  decide (m.length = c.nslot) && m.all fun o => o.all (frameOk c)

end Sys2Proof.Machine
end

