-- ==== Sys2Proof/Machine/Flags.lean ====
section
/-! DEFINITION. The hardware has no flags and no condition codes (10_state.md R28): what it computes about an operation
beside its result is the outcome code latched in `STATUS` (R26, R161) and the handshake state's code (R25). -/

namespace Sys2Proof.Machine

/-- The outcome codes of 60_exceptions.md R161. -/
def ErrorKind.code : ErrorKind → BitVec 4
  | .invalidCommand => 1
  | .tooManyParameters => 2
  | .frameTooLong => 3
  | .lengthMismatch => 4
  | .checksumMismatch => 5
  | .handshakeDesync => 6
  | .transportShortWrite => 7
  | .transportFault => 8
  | .slotEmpty => 9
  | .illegalOp => 10

/-- What `STATUS` takes when an operation ends so: 0 for `OK`, else the kind's code (R13, R161). -/
def Delivery.code : Delivery → BitVec 4
  | .ok _ => 0
  | .error k => k.code

/-- The two bits `hs` is stored as (R25). -/
def Handshake.code : Handshake → BitVec 2
  | .idle => 0
  | .sentSync => 1
  | .confirmed => 2
  | .failed => 3

end Sys2Proof.Machine
end

