-- ==== Sys2Proof/Machine/Ops.lean ====
section
/-! DEFINITION. The named operations on the state: slots, `hs`, ending an operation (with `OK` or by raising an error kind),
the two transport primitives, reset, and what the host and the transport can do between steps. -/

namespace Sys2Proof.Machine

/-! ### Slots and registers -/

/-- `F[d]` (R11): `none` is `Empty`; a slot that does not exist holds nothing. -/
def State.slot (s : State) (d : SlotIx) : Option Frame := (s.slots[d.toNat]?).join

/-- `F[d][i]`: one byte of the addressed memory, `none` where there is no such byte (R11, R29). -/
def State.byte? (s : State) (d : SlotIx) (i : Nat) : Option Byte := (s.slot d).bind (·[i]?)

/-- `F[d] <- f`, whole-slot replacement, the only write (R11, R23). -/
def State.setSlot (s : State) (d : SlotIx) (f : Frame) : State := { s with slots := s.slots.set d.toNat (some f) }

/-- `hs <- h` (R11). -/
def State.setHs (s : State) (h : Handshake) : State := { s with hs := h }

/-- The bytes read so far during one RX_FRAME (R30 (c)). -/
def State.setStaging (s : State) (l : List Byte) : State := { s with staging := l }

/-- The operation in progress waits at this transport call (R139, R195). Nothing else changes. -/
def State.block (s : State) (p : Phase) : State := { s with phase := p }

/-! ### Ending an operation (00_scope.md R13, 60_exceptions.md R160, R168, R173) -/

/-- An operation completes: its outcome and result go to the host, `STATUS` latches the code, the staging buffer is
discarded (R30 (c)) and no operation is in progress. -/
def State.complete (s : State) (x : Delivery) : State :=
  { s with status := x.code, staging := [], phase := .idle, delivered := s.delivered ++ [x] }

/-- `return v`: outcome `OK` with its result (R13). -/
def finish (r : Result) (s : State) : State := s.complete (.ok r)

/-- `raise K`, the one way an error is taken: the operation ends with the kind, `STATUS` takes its code, no slot changes,
what the transport has done stays done, and control goes nowhere (R13, R168, R174). There is nothing to return from: the
block is ready for the next operation (R173). -/
def raise (k : ErrorKind) (s : State) : State := s.complete (.error k)

/-! ### The transport (00_scope.md R12, 20_memory.md R48 to R50) -/

/-- `c <- TxWrite(b)`. `none`: the transport does not answer yet. The next entry of `tx` says how many bytes the transport
has room for, and the count is that or, if less, the length of `b`: every count from 0 to `len(b)` and no other (R48). -/
def txWrite (b : List Byte) (s : State) : Option (Nat × State) :=
  match s.tx with
  | [] => none
  | room :: rest =>
    some (min room b.length, { s with tx := rest, trace := s.trace ++ [.write b (min room b.length)] })

/-- Takes the answer to a read of `k` bytes off the inbound stream: the next `k` bytes; or `fault` if a fault comes before
they are complete, the bytes before it being lost (44_transfer.md R153 (f)); `none` if the stream does not hold them yet. -/
def takeRead : Nat → List RxItem → Option (ReadAnswer × List RxItem)
  | 0, rest => some (.bytes [], rest)
  | _ + 1, [] => none
  | _ + 1, .fault :: rest => some (.fault, rest)
  | k + 1, .byte b :: rest =>
    match takeRead k rest with
    | some (.bytes l, rest') => some (.bytes (b :: l), rest')
    | some (.fault, rest') => some (.fault, rest')
    | none => none

/-- `r <- RxRead(k)`. `none`: the transport does not answer yet, and nothing is consumed (R49). -/
def rxRead (k : Nat) (s : State) : Option (ReadAnswer × State) :=
  match takeRead k s.rx with
  | none => none
  | some (r, rest) => some (r, { s with rx := rest, trace := s.trace ++ [.read k r] })

/-- The bytes that have left on the outbound stream, in order: of each write, the leading bytes counted (R29 (b), R48). -/
def sentBytes : List Event → List Byte
  | [] => []
  | .write b c :: rest => b.take c ++ sentBytes rest
  | .read _ _ :: rest => sentBytes rest

/-! ### Fetching a request (20_memory.md R51, R54) -/

/-- What a step has to do. -/
inductive Work where
  /-- No operation is in progress and the host issues none. -/
  | wait
  /-- An operation is in progress. -/
  | resume (p : Phase)
  /-- A request has been taken, and selects `i`. -/
  | run (i : Instr) (s : State)
  /-- A request has been taken, and selects nothing. -/
  | reject (e : Reject) (s : State)

/-- An operation in progress goes on, and no request is accepted meanwhile (R51, D22); else the host's next request is
taken and decoded; else nothing happens (60_exceptions.md R172). -/
def fetch (s : State) : Work :=
  match s.phase with
  | .idle =>
    match s.requests with
    | [] => .wait
    | r :: rest =>
      match decode s.cfg r with
      | .ok i => .run i { s with requests := rest }
      | .error e => .reject e { s with requests := rest }
  | p => .resume p

/-- A header that selects no operation ends with outcome `IllegalOp` and changes nothing else (R73, R161). What is no request
of R73 at all stops the model by name. -/
def rejectRequest (e : Reject) (s : State) : Host.Outcome State Fault Refusal :=
  match e with
  | .unusedCode _ => .next (raise .illegalOp s)
  | .slotOutOfRange _ => .next (raise .illegalOp s)
  | .notAPair _ _ => .fault .notAPair
  | .strayByte _ => .fault .strayByte

/-! ### What the outside can do between steps -/

/-- The host issues a request; it waits its turn (R51, D22). -/
def State.issue (s : State) (r : Request) : State := { s with requests := s.requests ++ [r] }

/-- The transport receives more of the inbound stream (R49). -/
def State.deliver (s : State) (l : List RxItem) : State := { s with rx := s.rx ++ l }

/-- The transport will have room for `room` bytes at its next unanswered write (R48). -/
def State.grantWrite (s : State) (room : Nat) : State := { s with tx := s.tx ++ [room] }

/-- The transport loses the next `n` items of the inbound stream, as it may after a reset (R192) or a link error (R194). -/
def State.loseInbound (s : State) (n : Nat) : State := { s with rx := s.rx.drop n }

/-- The reset event, at any moment (R190, R192): slots `Empty`, `hs` `Idle`, `STATUS` 0, staging empty, an operation in
progress abandoned with no outcome. The parameters (R27), the transport (R191), what was observed and the host's plan stay.
R192 leaves it to the transport whether the bytes of a read that reset abandons "are later lost or delivered to the next read".
That this event by itself keeps them for the next read is the model's choice (DESIGN CHOICE, assumption log 24); their loss is
the outside input `State.loseInbound` after it.
R192 says nothing of a write that has been presented and not answered. That reset abandons it with none of its bytes sent and no
event recorded, and that the next entry of `tx` then answers the next operation's write, is the model's choice too (DESIGN CHOICE,
assumption log 26). -/
def State.blockReset (s : State) : State :=
  { s with slots := List.replicate s.cfg.nslot none, hs := .idle, status := 0, staging := [], phase := .idle }

/-- The next thing the step fetches is `r`, no operation being in progress. -/
def State.placeRequest (s : State) (r : Request) : State :=
  { s with phase := .idle, requests := r :: s.requests }

end Sys2Proof.Machine
end

