-- ==== Sys2Proof/Machine/Operands.lean ====
section
/-! DEFINITION. The operand forms of 30_encoding.md R73 and the test each operand gets, in the order the operations' pseudocode
makes them (60_exceptions.md R171). Each form takes what the operation does next. -/

namespace Sys2Proof.Machine

/-- `in_cmdset(b)` (40_frame_encoder.md R91). -/
def inCmdset (c : Config) (b : Byte) : Bool := c.cmdset.contains b

/-- A slot operand. A slot that does not exist is `IllegalOp`, before everything (R73, R171). -/
def withSlot (d : SlotIx) (k : State → State) (s : State) : State :=
  if slotExists s.cfg d then k s else raise .illegalOp s

/-- A source slot operand: an `Empty` slot is `SlotEmpty` (10_state.md R33). -/
def withFrame (q : SlotIx) (k : Frame → State → State) : State → State :=
  withSlot q fun s =>
    match s.slot q with
    | none => raise .slotEmpty s
    | some f => k f s

/-- A command operand: a byte outside `CMDSET` is `InvalidCommand` (30_encoding.md R68, 60_exceptions.md R162). -/
def withCommand (cmd : Byte) (k : State → State) (s : State) : State :=
  if inCmdset s.cfg cmd then k s else raise .invalidCommand s

/-- A parameters operand: more than `MAX_PARAMS` bytes is `TooManyParameters` (60_exceptions.md R163). -/
def withParams (p : List Byte) (k : State → State) (s : State) : State :=
  if p.length ≤ s.cfg.maxParams then k s else raise .tooManyParameters s

/-- The operation ends with `OK`, slot `d` holding `f` (R11, R13). -/
def storeFrame (d : SlotIx) (f : Frame) (s : State) : State := finish .none (s.setSlot d f)

/-- `parse(raw)` (42_frame_parser.md R120 to R125). -/
def parse (c : Config) (raw : List Byte) : Except ErrorKind Frame :=
  if c.maxFrame < raw.length then .error .frameTooLong
  else if raw.length < c.minFrame then .error .lengthMismatch
  else if (byteAt raw 0).toNat ≠ raw.length then .error .lengthMismatch
  else if storedChecksum raw ≠ sum16 (summedBytes raw) then .error .checksumMismatch
  else if c.parseCheckCommand && !inCmdset c (byteAt raw 1) then .error .invalidCommand
  else .ok raw

/-- A raw operand or the received bytes go to `parse`; the slot is written only if it accepts them (R120, R152). -/
def storeParsed (d : SlotIx) (raw : List Byte) (s : State) : State :=
  match parse s.cfg raw with
  | .error k => raise k s
  | .ok f => storeFrame d f s

/-- NEW (40_frame_encoder.md R90), which the two builders abbreviate (R96, R97). -/
def newFrame (d : SlotIx) (cmd : Byte) (p : List Byte) : State → State :=
  withSlot d (withCommand cmd (withParams p (storeFrame d (encodeFrame cmd p))))

end Sys2Proof.Machine
end

