-- ==== Sys2Proof/Machine/Accessors.lean ====
section
/-! DEFINITION. The frame accessors (41_frame_accessors.md): COMMAND, PARAMETERS, CHECKSUM, TO_BYTES. Each returns a copy and
writes no slot. -/

namespace Sys2Proof.Machine

/-- COMMAND s (R110). -/
def execCommand (q : SlotIx) (s : State) : Host.Outcome State Fault Refusal :=
  .next (withFrame q (fun f => finish (.byte (byteAt f 1))) s)

/-- PARAMETERS s (R111). -/
def execParameters (q : SlotIx) (s : State) : Host.Outcome State Fault Refusal :=
  .next (withFrame q (fun f => finish (.bytes (paramsOf f))) s)

/-- CHECKSUM s (R112): the stored field, read low byte first. -/
def execChecksum (q : SlotIx) (s : State) : Host.Outcome State Fault Refusal :=
  .next (withFrame q (fun f => finish (.half (storedChecksum f))) s)

/-- TO_BYTES s (R113). -/
def execToBytes (q : SlotIx) (s : State) : Host.Outcome State Fault Refusal :=
  .next (withFrame q (fun f => finish (.bytes f)) s)

end Sys2Proof.Machine
end

