-- ==== Sys2Proof/Machine/Commands.lean ====
section
/-! DEFINITION. The seventeen command names (30_encoding.md R66, R67). A command value is data to this hardware, the byte at
frame offset 1: "The hardware attaches no meaning to a command value other than membership in this set". What each row does is
therefore the membership test that NEW, SET_COMMAND and, when it is switched on, the parser apply to its value (R91, R162). -/

namespace Sys2Proof.Machine

/-- A command value meets the membership test: a member of `CMDSET` passes and nothing changes, `in_cmdset` being a pure
function (40_frame_encoder.md R91); any other value is rejected with `InvalidCommand` (R68). -/
def recognize (cmd : Byte) : State → State := withCommand cmd id

/-- CONNECTION (R66), whose value is the parameter of that name (R6). -/
def execConnection (s : State) : Host.Outcome State Fault Refusal := .next (recognize s.cfg.connection s)

/-- SELECT_RF (R66). -/
def execSelectRf (s : State) : Host.Outcome State Fault Refusal := .next (recognize 0x02 s)

/-- GET_VERSION (R66), whose value is the parameter of that name (R6). -/
def execGetVersion (s : State) : Host.Outcome State Fault Refusal := .next (recognize s.cfg.getVersion s)

/-- ISO15693_INVENTORY (R66). -/
def execIso15693Inventory (s : State) : Host.Outcome State Fault Refusal := .next (recognize 0x06 s)

/-- ISO15693_ACCESS (R66). -/
def execIso15693Access (s : State) : Host.Outcome State Fault Refusal := .next (recognize 0x07 s)

/-- ISO14443A_ACCESS (R66). The value carries two names, and the hardware behaves identically whichever is meant (R67). -/
def execIso14443aAccess (s : State) : Host.Outcome State Fault Refusal := .next (recognize 0x08 s)

/-- MIFARE_UL_ACCESS (R66). The value carries two names, and the hardware behaves identically whichever is meant (R67). -/
def execMifareUlAccess (s : State) : Host.Outcome State Fault Refusal := .next (recognize 0x08 s)

/-- ISO14443A_INVENTORY (R66). -/
def execIso14443aInventory (s : State) : Host.Outcome State Fault Refusal := .next (recognize 0x09 s)

/-- ST_INVENTORY (R66). -/
def execStInventory (s : State) : Host.Outcome State Fault Refusal := .next (recognize 0x0A s)

/-- ST_ACCESS (R66). -/
def execStAccess (s : State) : Host.Outcome State Fault Refusal := .next (recognize 0x0B s)

/-- ISO14443B_INVENTORY (R66). -/
def execIso14443bInventory (s : State) : Host.Outcome State Fault Refusal := .next (recognize 0x0C s)

/-- ISO14443B_ACCESS (R66). -/
def execIso14443bAccess (s : State) : Host.Outcome State Fault Refusal := .next (recognize 0x0D s)

/-- FELICA_INVENTORY (R66). -/
def execFelicaInventory (s : State) : Host.Outcome State Fault Refusal := .next (recognize 0x0E s)

/-- TOPAZ_INVENTORY (R66). The value carries two names, and the hardware behaves identically whichever is meant (R67). -/
def execTopazInventory (s : State) : Host.Outcome State Fault Refusal := .next (recognize 0x0F s)

/-- TOPAZ_ACCESS (R66). The value carries two names, and the hardware behaves identically whichever is meant (R67). -/
def execTopazAccess (s : State) : Host.Outcome State Fault Refusal := .next (recognize 0x0F s)

/-- SET_TARGET (R66). -/
def execSetTarget (s : State) : Host.Outcome State Fault Refusal := .next (recognize 0x20 s)

/-- SET_INITIATOR (R66). -/
def execSetInitiator (s : State) : Host.Outcome State Fault Refusal := .next (recognize 0x21 s)

end Sys2Proof.Machine
end

