-- ==== Sys2Proof/Machine/Encoder.lean ====
section
/-! DEFINITION. The frame encoder (40_frame_encoder.md): NEW, the two builders, SET_COMMAND, SET_PARAMETERS,
RECOMPUTE_CHECKSUM. -/

namespace Sys2Proof.Machine

/-- NEW d, cmd, P (R90). -/
def execNew (d : SlotIx) (cmd : Byte) (p : List Byte) (s : State) : Host.Outcome State Fault Refusal :=
  .next (newFrame d cmd p s)

/-- VERSION_REQUEST d: exactly NEW d, GET_VERSION, [] (R96). -/
def execVersionRequest (d : SlotIx) (s : State) : Host.Outcome State Fault Refusal :=
  .next (newFrame d s.cfg.getVersion [] s)

/-- TEST_REQUEST d: exactly NEW d, CONNECTION, TEST_PARAMS (R97). -/
def execTestRequest (d : SlotIx) (s : State) : Host.Outcome State Fault Refusal :=
  .next (newFrame d s.cfg.connection s.cfg.testParams s)

/-- SET_COMMAND s, cmd (R92). -/
def execSetCommand (q : SlotIx) (cmd : Byte) (s : State) : Host.Outcome State Fault Refusal :=
  .next (withFrame q (fun f => withCommand cmd (storeFrame q (encodeFrame cmd (paramsOf f)))) s)

/-- SET_PARAMETERS s, P (R93): the command byte is kept and not tested again. -/
def execSetParameters (q : SlotIx) (p : List Byte) (s : State) : Host.Outcome State Fault Refusal :=
  .next (withFrame q (fun f => withParams p (storeFrame q (encodeFrame (byteAt f 1) p))) s)

/-- RECOMPUTE_CHECKSUM s (R95). -/
def execRecomputeChecksum (q : SlotIx) (s : State) : Host.Outcome State Fault Refusal :=
  .next (withFrame q (fun f => storeFrame q (withChecksum (summedBytes f))) s)

end Sys2Proof.Machine
end

