-- ==== Sys2Proof/Machine/Phases.lean ====
section
/-! DEFINITION. The operations that use the transport, cut at their transport calls (43_link_handshake.md R139): each function
runs an operation from one call on, and leaves the machine waiting at a call the transport does not answer (70_reset_and_hazards.md
R195). `resume` takes an operation up again where it waits. -/

namespace Sys2Proof.Machine

/-- TX_FRAME from its start (44_transfer.md R150, R151). -/
def txFrame (q : SlotIx) : State → State :=
  withFrame q fun f s =>
    match txWrite f s with
    | none => s.block (.txWrite q)
    | some (c, s') => if c < f.length then raise .transportShortWrite s' else finish .none s'

/-- RX_FRAME from its second read on, the length byte `L` being in the staging buffer (R152, R153): no second read when `L`
is 0 or 1. -/
def rxRest (d : SlotIx) (s : State) : State :=
  if 2 ≤ (byteAt s.staging 0).toNat then
    match rxRead ((byteAt s.staging 0).toNat - 1) s with
    | none => s.block (.rxRest d)
    | some (.fault, s') => raise .transportFault s'
    | some (.bytes r1, s') => storeParsed d (s'.staging ++ r1) (s'.setStaging (s'.staging ++ r1))
  else storeParsed d s.staging s

/-- RX_FRAME from its first read (R152). -/
def rxLength (d : SlotIx) (s : State) : State :=
  match rxRead 1 s with
  | none => s.block (.rxLength d)
  | some (.fault, s') => raise .transportFault s'
  | some (.bytes r0, s') => rxRest d (s'.setStaging r0)

/-- RX_FRAME from its start. -/
def rxFrame (d : SlotIx) : State → State := withSlot d (rxLength d)

/-- RTS from its read on (R131, R132); after `Confirmed`, SEND_FRAME goes on to TX_FRAME (R154). -/
def rtsRead (then? : Option SlotIx) (s : State) : State :=
  match rxRead 1 s with
  | none => s.block (.rtsRead then?)
  | some (.fault, s') => raise .transportFault (s'.setHs .failed)
  | some (.bytes r, s') =>
    if r = [s'.cfg.ackRts] then
      match then? with
      | none => finish .none (s'.setHs .confirmed)
      | some q => txFrame q (finish .none (s'.setHs .confirmed))
    else raise .handshakeDesync (s'.setHs .failed)

/-- RTS from its write on, `hs` being `Idle`; the count is not examined (R131). -/
def rtsWrite (then? : Option SlotIx) (s : State) : State :=
  match txWrite [s.cfg.syncRts] s with
  | none => s.block (.rtsWrite then?)
  | some (_, s') => rtsRead then? (s'.setHs .sentSync)

/-- RTR from its write on, `hs` being `Idle` (R133, R134); after `Confirmed`, RECV_FRAME goes on to RX_FRAME (R155). -/
def rtrWrite (then? : Option SlotIx) (s : State) : State :=
  match txWrite [s.cfg.ackRtr] s with
  | none => s.block (.rtrWrite then?)
  | some (c, s') =>
    if c < 1 then raise .transportShortWrite ((s'.setHs .sentSync).setHs .failed)
    else
      match then? with
      | none => finish .none ((s'.setHs .sentSync).setHs .confirmed)
      | some d => rxFrame d (finish .none ((s'.setHs .sentSync).setHs .confirmed))

/-- RTR from its read on, `hs` being `Idle` (R133, R135). -/
def rtrRead (then? : Option SlotIx) (s : State) : State :=
  match rxRead 1 s with
  | none => s.block (.rtrRead then?)
  | some (.fault, s') => raise .transportFault (s'.setHs .failed)
  | some (.bytes r, s') =>
    if r = [s'.cfg.syncRtr] then rtrWrite then? s' else raise .handshakeDesync (s'.setHs .failed)

/-- The sentinel SYNC_RTS by itself: the edge `Idle` to `SentSync` of RTS (30_encoding.md R69, 43_link_handshake.md R130). The
exchange has not ended, so there is no outcome. -/
def syncRtsWrite (s : State) : State :=
  match txWrite [s.cfg.syncRts] s with
  | none => s.block .syncRtsWrite
  | some (_, s') => (s'.setHs .sentSync).block .idle

/-- The sentinel SYNC_RTR by itself: the read of RTR (R69, R130). On the expected byte the exchange has not ended, so there is
no outcome; on any other byte or a fault it has failed. -/
def syncRtrRead (s : State) : State :=
  match rxRead 1 s with
  | none => s.block .syncRtrRead
  | some (.fault, s') => raise .transportFault (s'.setHs .failed)
  | some (.bytes r, s') =>
    if r = [s'.cfg.syncRtr] then s'.block .idle else raise .handshakeDesync (s'.setHs .failed)

/-- The operation in progress tries again the transport call it waits at. -/
def resumePhase (p : Phase) (s : State) : State :=
  match p with
  | .idle => s
  | .rtsWrite n => rtsWrite n s
  | .rtsRead n => rtsRead n s
  | .rtrRead n => rtrRead n s
  | .rtrWrite n => rtrWrite n s
  | .txWrite q => txFrame q s
  | .rxLength d => rxLength d s
  | .rxRest d => rxRest d s
  | .syncRtsWrite => syncRtsWrite s
  | .syncRtrRead => syncRtrRead s

end Sys2Proof.Machine
end

