-- ==== Sys2Proof/Machine/Handshake.lean ====
section
/-! DEFINITION. The link handshake (43_link_handshake.md): RTS, RTR, and the four sentinels (30_encoding.md R69), each of which
is one step of one exchange (R130). RTS is SYNC_RTS then ACK_RTS; RTR is SYNC_RTR then ACK_RTR. -/

namespace Sys2Proof.Machine

/-- RTS (R131): a fresh call starts from `Idle`. -/
def execRts (s : State) : Host.Outcome State Fault Refusal := .next (rtsWrite none (s.setHs .idle))

/-- RTR (R133): a fresh call starts from `Idle`. -/
def execRtr (s : State) : Host.Outcome State Fault Refusal := .next (rtrRead none (s.setHs .idle))

/-- SYNC_RTS: "written by the hardware", the first step of request-to-send (R69), from `Idle` to `SentSync` (R130). -/
def execSyncRts (s : State) : Host.Outcome State Fault Refusal := .next (syncRtsWrite (s.setHs .idle))

/-- ACK_RTS: "read by the hardware", the second step of request-to-send (R69), from `SentSync` to `Confirmed` or `Failed`
(R130). -/
def execAckRts (s : State) : Host.Outcome State Fault Refusal := .next (rtsRead none (s.setHs .sentSync))

/-- SYNC_RTR: "read by the hardware", the first step of ready-to-receive (R69), from `Idle` (R130). -/
def execSyncRtr (s : State) : Host.Outcome State Fault Refusal := .next (syncRtrRead (s.setHs .idle))

/-- ACK_RTR: "written by the hardware", the second step of ready-to-receive (R69), from `Idle` through `SentSync` to
`Confirmed` or `Failed` (R130). -/
def execAckRtr (s : State) : Host.Outcome State Fault Refusal := .next (rtrWrite none (s.setHs .idle))

end Sys2Proof.Machine
end

