-- ==== Sys2Proof/Machine/Parser.lean ====
section
/-! DEFINITION. The frame parser (42_frame_parser.md): FROM_BYTES. -/

namespace Sys2Proof.Machine

/-- FROM_BYTES d, raw (R120). -/
def execFromBytes (d : SlotIx) (raw : List Byte) (s : State) : Host.Outcome State Fault Refusal :=
  .next (withSlot d (storeParsed d raw) s)

end Sys2Proof.Machine
end

