-- ==== Sys2Proof/Machine/Transfer.lean ====
section
/-! DEFINITION. Frame transfer (44_transfer.md): TX_FRAME, RX_FRAME and the joined sequences SEND_FRAME, RECV_FRAME. -/

namespace Sys2Proof.Machine

/-- TX_FRAME s (R150). No handshake is made or checked (70_reset_and_hazards.md R197). -/
def execTxFrame (q : SlotIx) (s : State) : Host.Outcome State Fault Refusal := .next (txFrame q s)

/-- RX_FRAME d (R152). No handshake is made or checked (R197). -/
def execRxFrame (d : SlotIx) (s : State) : Host.Outcome State Fault Refusal := .next (rxFrame d s)

/-- SEND_FRAME s (R154): the slot is tested, then RTS, then on `OK` TX_FRAME s. -/
def execSendFrame (q : SlotIx) (s : State) : Host.Outcome State Fault Refusal :=
  .next (withFrame q (fun _ s => rtsWrite (some q) (s.setHs .idle)) s)

/-- RECV_FRAME d (R155): RTR, then on `OK` RX_FRAME d. -/
def execRecvFrame (d : SlotIx) (s : State) : Host.Outcome State Fault Refusal :=
  .next (withSlot d (fun s => rtrRead (some d) (s.setHs .idle)) s)

end Sys2Proof.Machine
end

