-- ==== Sys2Proof/Machine/Dispatch.lean ====
section
/-! DEFINITION. One arm per instruction, each a call of its meaning. -/

namespace Sys2Proof.Machine

def exec (i : Instr) (s : State) : Host.Outcome State Fault Refusal :=
  match i with
  | .new d cmd p => Sys2Proof.Machine.execNew d cmd p s
  | .fromBytes d raw => Sys2Proof.Machine.execFromBytes d raw s
  | .command q => Sys2Proof.Machine.execCommand q s
  | .setCommand q cmd => Sys2Proof.Machine.execSetCommand q cmd s
  | .parameters q => Sys2Proof.Machine.execParameters q s
  | .setParameters q p => Sys2Proof.Machine.execSetParameters q p s
  | .checksum q => Sys2Proof.Machine.execChecksum q s
  | .recomputeChecksum q => Sys2Proof.Machine.execRecomputeChecksum q s
  | .toBytes q => Sys2Proof.Machine.execToBytes q s
  | .rts => Sys2Proof.Machine.execRts s
  | .rtr => Sys2Proof.Machine.execRtr s
  | .txFrame q => Sys2Proof.Machine.execTxFrame q s
  | .rxFrame d => Sys2Proof.Machine.execRxFrame d s
  | .versionRequest d => Sys2Proof.Machine.execVersionRequest d s
  | .testRequest d => Sys2Proof.Machine.execTestRequest d s
  | .sendFrame q => Sys2Proof.Machine.execSendFrame q s
  | .recvFrame d => Sys2Proof.Machine.execRecvFrame d s
  | .connection => Sys2Proof.Machine.execConnection s
  | .selectRf => Sys2Proof.Machine.execSelectRf s
  | .getVersion => Sys2Proof.Machine.execGetVersion s
  | .iso15693Inventory => Sys2Proof.Machine.execIso15693Inventory s
  | .iso15693Access => Sys2Proof.Machine.execIso15693Access s
  | .iso14443aAccess => Sys2Proof.Machine.execIso14443aAccess s
  | .mifareUlAccess => Sys2Proof.Machine.execMifareUlAccess s
  | .iso14443aInventory => Sys2Proof.Machine.execIso14443aInventory s
  | .stInventory => Sys2Proof.Machine.execStInventory s
  | .stAccess => Sys2Proof.Machine.execStAccess s
  | .iso14443bInventory => Sys2Proof.Machine.execIso14443bInventory s
  | .iso14443bAccess => Sys2Proof.Machine.execIso14443bAccess s
  | .felicaInventory => Sys2Proof.Machine.execFelicaInventory s
  | .topazInventory => Sys2Proof.Machine.execTopazInventory s
  | .topazAccess => Sys2Proof.Machine.execTopazAccess s
  | .setTarget => Sys2Proof.Machine.execSetTarget s
  | .setInitiator => Sys2Proof.Machine.execSetInitiator s
  | .syncRts => Sys2Proof.Machine.execSyncRts s
  | .ackRts => Sys2Proof.Machine.execAckRts s
  | .syncRtr => Sys2Proof.Machine.execSyncRtr s
  | .ackRtr => Sys2Proof.Machine.execAckRtr s

end Sys2Proof.Machine
end

