-- ==== Sys2Proof/Machine/Step.lean ====
section
/-! DEFINITION. One step of the machine, and how an opcode-table word is placed where the step takes its next request. -/

namespace Sys2Proof.Machine

/-- One step: an operation in progress goes on; else the host's next request is taken, decoded and run; else nothing happens
(20_memory.md R51, 60_exceptions.md R172). -/
def step (s : State) : Host.Outcome State Fault Refusal :=
  match fetch s with
  | .wait => .next s
  | .resume p => .next (resumePhase p s)
  | .run i s' => exec i s'
  | .reject e s' => rejectRequest e s'

/-- `s` with the request that an opcode-table word stands for issued next, no operation being in progress. -/
def State.withFetchWord (s : State) (nbits w : Nat) : State :=
  match requestOfTableWord nbits w with
  | some r => s.placeRequest r
  | none => s

end Sys2Proof.Machine
end

