-- ==== Sys2Proof/Safety.lean ====
section
/-! DEFINITION. The terms claims are made in: the invariant of a run, which instruction may touch what, and how each may
end. -/

namespace Sys2Proof

open Machine

/-! ### What an instruction may touch (10_state.md R23) -/

/-- The slot an instruction reads as its source (R23). -/
def Instr.source? : Instr → Option SlotIx
  | .command q | .setCommand q _ | .parameters q | .setParameters q _ | .checksum q | .recomputeChecksum q
  | .toBytes q | .txFrame q | .sendFrame q => some q
  | _ => none

/-- The slot an instruction writes when it ends with `OK` (R23). -/
def Instr.dest? : Instr → Option SlotIx
  | .new d _ _ | .fromBytes d _ | .rxFrame d | .versionRequest d | .testRequest d | .recvFrame d => some d
  | .setCommand q _ | .setParameters q _ | .recomputeChecksum q => some q
  | _ => none

/-- The instructions that run a handshake, or a step of one: the only ones that touch `hs`. -/
def Instr.usesHandshake : Instr → Bool
  | .rts | .rtr | .sendFrame _ | .recvFrame _ | .syncRts | .ackRts | .syncRtr | .ackRtr => true
  | _ => false

/-- The instructions that use the transport (R29 (b), (c)). -/
def Instr.usesTransport : Instr → Bool
  | .txFrame _ | .rxFrame _ => true
  | i => i.usesHandshake

/-- The rows that are names of command values (R66), with the value: the parameter's where R6 has one. -/
def Instr.commandValue? (c : Config) : Instr → Option Byte
  | .connection => some c.connection
  | .selectRf => some 0x02
  | .getVersion => some c.getVersion
  | .iso15693Inventory => some 0x06
  | .iso15693Access => some 0x07
  | .iso14443aAccess | .mifareUlAccess => some 0x08
  | .iso14443aInventory => some 0x09
  | .stInventory => some 0x0A
  | .stAccess => some 0x0B
  | .iso14443bInventory => some 0x0C
  | .iso14443bAccess => some 0x0D
  | .felicaInventory => some 0x0E
  | .topazInventory | .topazAccess => some 0x0F
  | .setTarget => some 0x20
  | .setInitiator => some 0x21
  | _ => none

/-! ### How an operation may end (60_exceptions.md R177) -/

/-- The error kinds `parse` may report to RX_FRAME and RECV_FRAME; `InvalidCommand` only under the switch. -/
def receiveErrors (c : Config) : List ErrorKind :=
  [.lengthMismatch, .checksumMismatch] ++ if c.parseCheckCommand then [.invalidCommand] else []

/-- The error columns of R177's matrix, row by row. `IllegalOp` is no operation's, but the request decoder's. A command name's
only test is membership; a sentinel row has the errors of its step of the exchange (R130). -/
def Instr.errors (c : Config) : Instr → List ErrorKind
  | .new _ _ _ => [.invalidCommand, .tooManyParameters]
  | .versionRequest _ | .testRequest _ => []
  | .fromBytes _ _ => .frameTooLong :: receiveErrors c
  | .command _ | .parameters _ | .checksum _ | .toBytes _ => [.slotEmpty]
  | .setCommand _ _ => [.invalidCommand, .slotEmpty]
  | .setParameters _ _ => [.tooManyParameters, .slotEmpty]
  | .recomputeChecksum _ => [.slotEmpty]
  | .rts => [.handshakeDesync, .transportFault]
  | .rtr => [.handshakeDesync, .transportShortWrite, .transportFault]
  | .txFrame _ => [.transportShortWrite, .slotEmpty]
  | .rxFrame _ => .transportFault :: receiveErrors c
  | .sendFrame _ => [.handshakeDesync, .transportShortWrite, .transportFault, .slotEmpty]
  | .recvFrame _ => [.handshakeDesync, .transportShortWrite, .transportFault] ++ receiveErrors c
  | .syncRts => []
  | .ackRts => [.handshakeDesync, .transportFault]
  | .syncRtr => [.handshakeDesync, .transportFault]
  | .ackRtr => [.transportShortWrite]
  | .connection | .selectRf | .getVersion | .iso15693Inventory | .iso15693Access | .iso14443aAccess
  | .mifareUlAccess | .iso14443aInventory | .stInventory | .stAccess | .iso14443bInventory | .iso14443bAccess
  | .felicaInventory | .topazInventory | .topazAccess | .setTarget | .setInitiator => [.invalidCommand]

/-! ### The invariant of a run -/

namespace Machine

/-- What holds while an operation waits: `hs` stands where the pseudocode has it (43_link_handshake.md R139), the slots the
operation will use exist and hold what it needs, and only RX_FRAME's second read has a staged byte (10_state.md R30 (c)). -/
def State.PhaseOk (s : State) : Prop :=
  match s.phase with
  | .idle => s.staging = []
  | .rtsWrite n => s.hs = .idle ∧ s.staging = [] ∧ ∀ q, n = some q → slotExists s.cfg q = true ∧ s.slot q ≠ none
  | .rtsRead n => s.hs = .sentSync ∧ s.staging = [] ∧ ∀ q, n = some q → slotExists s.cfg q = true ∧ s.slot q ≠ none
  | .rtrRead n => s.hs = .idle ∧ s.staging = [] ∧ ∀ d, n = some d → slotExists s.cfg d = true
  | .rtrWrite n => s.hs = .idle ∧ s.staging = [] ∧ ∀ d, n = some d → slotExists s.cfg d = true
  | .txWrite q => s.staging = [] ∧ slotExists s.cfg q = true ∧ s.slot q ≠ none
  | .rxLength d => s.staging = [] ∧ slotExists s.cfg d = true
  | .rxRest d => slotExists s.cfg d = true ∧ ∃ b : Byte, s.staging = [b] ∧ 2 ≤ b.toNat
  | .syncRtsWrite => s.hs = .idle ∧ s.staging = []
  | .syncRtrRead => s.hs = .idle ∧ s.staging = []

/-- The invariant: the parameters are ones the rules assume; the slot file is in its canonical form, so that every held frame
satisfies I1, I2, I3 (R22); `STATUS` holds an outcome code (R26); a waiting operation can go on. -/
structure State.Inv (s : State) : Prop where
  cfg : s.cfg.Wf
  memory : s.slots.wf s.cfg = true
  status : s.status.toNat ≤ 10
  phase : s.PhaseOk

/-- Invariant I4 for every held frame: its command is a member of `CMDSET` (R22). -/
def State.CommandsVetted (s : State) : Prop :=
  ∀ d f, s.slot d = some f → inCmdset s.cfg (byteAt f 1) = true

/-- `STATUS` is the code of the last outcome delivered (R26). -/
def State.StatusLatched (s : State) : Prop :=
  ∀ x, s.delivered.getLast? = some x → s.status = x.code

/-- The transport supplies more: `l` on the inbound stream, and answers `g` to further writes. -/
def State.supply (s : State) (l : List RxItem) (g : List Nat) : State :=
  { s with rx := s.rx ++ l, tx := s.tx ++ g }

end Machine

end Sys2Proof
end

