-- ==== Sys2Proof/Certificates/Slice0/Obligations.lean ====
section
/-! DEFINITION. The statements for the provers. -/

section

open Sys2Proof Sys2Proof.Machine

/-! ### Encoding and decoding -/

/-- Words written out bit by bit from the opcode table's patterns and from 95_test_vectors.md Q1 to Q7, and what they decode to
on a block with the default parameters. -/
def Obligations.WordsFromTheTableDecode : Prop :=
  decode Config.default (.header 0b0000000000000011#16 []) = .ok (.new 0 0x03 [])
  ∧ decode Config.default (.header 0b0011000100001001#16 []) = .ok (.setCommand 1 0x09)
  ∧ decode Config.default (.header 0b1001111111111111#16 []) = .ok .rts
  ∧ decode Config.default (.header 0b1100000100000000#16 []) = .ok (.rxFrame 1)
  ∧ decode Config.default (.header 0b0010000110101011#16 []) = .ok (.command 1)
  ∧ decode Config.default (.header 0b1101000000000000#16 []) = .error (.unusedCode 0xD)
  ∧ decode Config.default (.header 0b0010001000000000#16 []) = .error (.slotOutOfRange 2)
  ∧ decode Config.default (.joined 0b1001000000000000#16 0b1011000100000000#16) = .ok (.sendFrame 1)
  ∧ decode Config.default (.wire 0b00100001#8) = .ok .setInitiator
  ∧ decode Config.default (.wire 0b10101010#8) = .ok .ackRts

/-- For every instruction of a block, with every operand at every value, decoding its words gives it back, up to the other name
of the same words (R67, R74; that the words decode to NEW, and to the first name, is assumption log 11). A wire row whose byte the
parameters give to an earlier row too decodes to a row with the same byte (the model's choice, assumption log 25); with the default
parameters there is none. The selection codes are the spec's own choice (92_eei_decisions.md D3). -/
def Obligations.DecodeOfEncodeIsTheInstruction : Prop :=
  (∀ (c : Config) (i : Instr), i.wellFormed c = true →
    (i.ownByte c = true → decode c (encode c i) = .ok (i.canonical c))
    ∧ ∃ j, decode c (encode c i) = .ok j ∧ encode c j = encode c i)
  ∧ ∀ i : Instr, i.ownByte Config.default = true

/-- What the decoder lets through exists on the block, has words that no earlier wire row has, and its words decode to it again;
and it is its own canonical form: words decode to NEW and not to a builder, and 0x08 and 0x0F to their first names (the model's
choice, assumption log 11; which of two rows with one byte is taken is assumption log 25). -/
def Obligations.DecodedInstructionsAreCanonical : Prop :=
  ∀ (c : Config) (r : Request) (i : Instr), decode c r = .ok i →
    i.wellFormed c = true ∧ i.ownByte c = true ∧ i.canonical c = i ∧ decode c (encode c i) = .ok i

/-- "A field a format does not use is ignored, whatever it holds" (R73): two requests with the same selection code that agree
in the fields its format uses (R72) decode alike. -/
def Obligations.UnusedHeaderFieldsAreIgnored : Prop :=
  ∀ (c : Config) (h h' : Half) (p p' : List Byte),
    opField h = opField h' →
    ((opField h).toNat ∉ [0x9, 0xA] → slotField h = slotField h') →
    ((opField h).toNat ∈ [0x0, 0x3] → cmdField h = cmdField h') →
    ((opField h).toNat ∈ [0x0, 0x1, 0x5] → p = p') →
    decode c (.header h p) = decode c (.header h' p')

/-- A request header whose code is 0xD to 0xF, or whose format uses the slot field and whose slot is `NSLOT` or more, ends with
outcome `IllegalOp` and changes nothing else (R73; the spec's own decision, 92_eei_decisions.md D5). -/
def Obligations.IllegalHeaderEndsWithIllegalOp : Prop :=
  ∀ (s : State) (h : Half) (p : List Byte) (rest : List Request),
    s.phase = .idle → s.requests = .header h p :: rest →
    (0xD ≤ (opField h).toNat ∨ ((opField h).toNat ∉ [0x9, 0xA] ∧ s.cfg.nslot ≤ (slotField h).toNat)) →
    step s = .next { s with requests := rest, status := 10, staging := [], phase := .idle,
                            delivered := s.delivered ++ [.error .illegalOp] }

/-- A builder is exactly the NEW it abbreviates (R74, R96, R97), and the two names of an aliased value behave identically (R67):
an instruction and its canonical form have one effect. -/
def Obligations.OtherNamesHaveOneEffect : Prop :=
  ∀ (i : Instr) (s : State), exec i s = exec (i.canonical s.cfg) s

/-! ### The step -/

/-- When no operation is in progress and the next request decodes to `i`, the step is `exec i` with that request taken. -/
def Obligations.StepRunsTheDecodedInstruction : Prop :=
  ∀ (s : State) (r : Request) (rest : List Request) (i : Instr),
    s.phase = .idle → s.requests = r :: rest → decode s.cfg r = .ok i →
    step s = exec i { s with requests := rest }

/-- A request is taken only when no operation is in progress (R51, D22): while one is, it goes on, to a next state that leaves
the host's requests as they are; and with none in progress and none issued nothing happens (R172). -/
def Obligations.StepTakesRequestsOnlyWhenIdle : Prop :=
  ∀ s : State,
    (s.phase ≠ .idle → ∃ t, step s = .next t ∧ t = resumePhase s.phase s ∧ t.requests = s.requests)
    ∧ (s.phase = .idle → s.requests = [] → step s = .next s)

/-- No operation ever stops the machine: the step stops only on what is no request of R73, two headers that are not a
pseudo-operation's or a wire byte of no row (the model's choice, assumption log 10). -/
def Obligations.StepStopsOnlyOnWhatIsNoRequest : Prop :=
  ∀ s : State, (∃ t, step s = .next t)
    ∨ (s.phase = .idle ∧ ∃ rest,
        (∃ a b, s.requests = .joined a b :: rest ∧ decodePair a b = .error (.notAPair a b) ∧ step s = .fault .notAPair)
        ∨ (∃ b, s.requests = .wire b :: rest ∧ decodeWire s.cfg b = .error (.strayByte b) ∧ step s = .fault .strayByte))

/-! ### Reset and the parameters -/

/-- The state after reset: every slot `Empty`, `hs` `Idle`, `STATUS` 0, staging empty, idle (R32, R190; the spec's own decision
D15). -/
def Obligations.ResetStateIsTheTables : Prop :=
  (∀ d, State.reset.slot d = none) ∧ State.reset.slots.length = 2 ∧ State.reset.hs = .idle ∧ State.reset.status = 0
  ∧ State.reset.staging = [] ∧ State.reset.phase = .idle ∧ State.reset.cfg = Config.default

/-- The reset event (R190 to R192; the spec's own decisions D15, D23), at any moment: it leaves the block as after reset and
touches neither the transport, nor the trace, nor the parameters, and delivers no outcome (the observer's record is assumption log
19); the invariant holds after it. That bytes of a read it abandons stay for the next read is the model's choice, which R192 leaves
to the transport (assumption log 24); the transport's losing any number of them afterwards keeps all else and the invariant. That a
write it abandons unanswered sends nothing, records no event and leaves `tx` is the model's choice too, where R192 is silent
(assumption log 26). -/
def Obligations.BlockResetLeavesTheTransport : Prop :=
  ∀ s : State,
    (∀ d, s.blockReset.slot d = none) ∧ s.blockReset.hs = .idle ∧ s.blockReset.status = 0 ∧ s.blockReset.staging = []
    ∧ s.blockReset.phase = .idle ∧ s.blockReset.cfg = s.cfg ∧ s.blockReset.rx = s.rx ∧ s.blockReset.tx = s.tx
    ∧ s.blockReset.trace = s.trace ∧ s.blockReset.delivered = s.delivered ∧ s.blockReset.requests = s.requests
    ∧ (s.cfg.Wf → ∀ n, (s.blockReset.loseInbound n).Inv ∧ (s.blockReset.loseInbound n).rx = s.rx.drop n
        ∧ { s.blockReset.loseInbound n with rx := s.rx } = s.blockReset)

/-- With the default parameters the membership test accepts exactly the 15 values of R66 (R91) and rejects exactly the illegal
values that R68 lists. The defaults are ones the rules assume: what that takes is the model's reading (assumption log 18, from R6,
R20, R96 and R97). -/
def Obligations.CommandSetIsTheFifteenValues : Prop :=
  (∀ b : Byte, inCmdset Config.default b = true ↔
    b.toNat ∈ [0x01, 0x02, 0x03, 0x06, 0x07, 0x08, 0x09, 0x0A, 0x0B, 0x0C, 0x0D, 0x0E, 0x0F, 0x20, 0x21])
  ∧ (∀ b : Byte, inCmdset Config.default b = false ↔
    b.toNat ∈ [0x00, 0x04, 0x05] ∨ (0x10 ≤ b.toNat ∧ b.toNat ≤ 0x1F) ∨ 0x22 ≤ b.toNat)
  ∧ Config.default.Wf

/-! ### The frame format -/

/-- The length byte and the checksum of an encoded frame (R62, R63): the length byte is the byte count `4 + p` and does not
wrap; the command and the parameters follow; the last two bytes are the sum of the bytes before them modulo 65536, low byte
first, and read back as that sum. -/
def Obligations.EncodedFrameLayout : Prop :=
  ∀ (cmd : Byte) (p : List Byte), p.length ≤ 251 →
    let f := encodeFrame cmd p
    let c := (4 + p.length + cmd.toNat + (p.map BitVec.toNat).sum) % 65536
    f.length = 4 + p.length
    ∧ f = [BitVec.ofNat 8 (4 + p.length), cmd] ++ p ++ [BitVec.ofNat 8 (c % 256), BitVec.ofNat 8 (c / 256)]
    ∧ (byteAt f 0).toNat = 4 + p.length
    ∧ (storedChecksum f).toNat = c

/-- The sum never wraps for a frame within the limits (R99, which the spec derives): the stored checksum of a consistent frame
is the true sum of the bytes before it, and at most 64515. -/
def Obligations.ChecksumOfHeldFrameNeverWraps : Prop :=
  ∀ (c : Config) (f : Frame), c.Wf → frameOk c f = true →
    (storedChecksum f).toNat = ((f.take (f.length - 2)).map BitVec.toNat).sum ∧ (storedChecksum f).toNat ≤ 64515

/-- What the parser accepts (R126, which the spec derives): exactly the encoded frames, whose command is in `CMDSET` if
`PARSE_CHECK_COMMAND` is on; and it changes no byte. -/
def Obligations.ParserAcceptsExactlyEncodedFrames : Prop :=
  ∀ (c : Config) (raw f : Frame), c.Wf →
    (parse c raw = .ok f ↔
      f = raw ∧ ∃ cmd p, p.length ≤ c.maxParams ∧ raw = encodeFrame cmd p
        ∧ (c.parseCheckCommand = true → inCmdset c cmd = true))

/-- A change to any single byte of a valid frame is caught (R123, which the spec derives): a changed length byte as
`LengthMismatch`, any other changed byte as `ChecksumMismatch`. -/
def Obligations.SingleByteChangeIsCaught : Prop :=
  ∀ (c : Config) (f : Frame) (i : Nat) (b : Byte), c.Wf → frameOk c f = true → i < f.length → b ≠ byteAt f i →
    parse c (f.set i b) = .error (if i = 0 then .lengthMismatch else .checksumMismatch)

/-! ### The frame encoder -/

/-- NEW with a command of the set and at most `MAX_PARAMS` parameters ends with `OK`, the slot holding the encoded frame (R90). -/
def Obligations.NewBuildsTheEncodedFrame : Prop :=
  ∀ (s : State) (d : SlotIx) (cmd : Byte) (p : List Byte),
    slotExists s.cfg d = true → cmd ∈ s.cfg.cmdset → p.length ≤ s.cfg.maxParams →
    exec (.new d cmd p) s = .next
      { s with slots := s.slots.set d.toNat (some (encodeFrame cmd p)), status := 0, staging := [], phase := .idle,
               delivered := s.delivered ++ [.ok .none] }

/-- NEW with a command outside the set ends with `InvalidCommand`, also when there are too many parameters (the order is the
spec's own decision D7); with a command of the set and too many parameters, with `TooManyParameters`. No slot changes (D6). -/
def Obligations.NewRejectsBadOperands : Prop :=
  ∀ (s : State) (d : SlotIx) (cmd : Byte) (p : List Byte), slotExists s.cfg d = true →
    (cmd ∉ s.cfg.cmdset → exec (.new d cmd p) s = .next
      { s with status := 1, staging := [], phase := .idle, delivered := s.delivered ++ [.error .invalidCommand] })
    ∧ (cmd ∈ s.cfg.cmdset → s.cfg.maxParams < p.length → exec (.new d cmd p) s = .next
      { s with status := 2, staging := [], phase := .idle, delivered := s.delivered ++ [.error .tooManyParameters] })

/-- The two builders cannot fail (R96, R97): VERSION_REQUEST leaves the frame [04 03 07 00] and TEST_REQUEST the frame
[06 01 05 0A 16 00] in their slot, the parameters of the block being the default ones but for `NSLOT` and the switch. -/
def Obligations.BuildersLeaveTheirFrames : Prop :=
  ∀ (s : State) (d : SlotIx), slotExists s.cfg d = true →
    s.cfg = { Config.default with nslot := s.cfg.nslot, parseCheckCommand := s.cfg.parseCheckCommand } →
    exec (.versionRequest d) s = .next
      { s with slots := s.slots.set d.toNat (some [0x04, 0x03, 0x07, 0x00]), status := 0, staging := [], phase := .idle,
               delivered := s.delivered ++ [.ok .none] }
    ∧ exec (.testRequest d) s = .next
      { s with slots := s.slots.set d.toNat (some [0x06, 0x01, 0x05, 0x0A, 0x16, 0x00]), status := 0, staging := [],
               phase := .idle, delivered := s.delivered ++ [.ok .none] }

/-- SET_COMMAND on a held frame (R92): with a command of the set the frame becomes the encoding of that command and the same
parameters; with any other it ends with `InvalidCommand` and the frame is unchanged. -/
def Obligations.SetCommandReencodes : Prop :=
  ∀ (s : State) (q : SlotIx) (cmd : Byte) (f : Frame), slotExists s.cfg q = true → s.slot q = some f →
    (cmd ∈ s.cfg.cmdset → exec (.setCommand q cmd) s = .next
      { s with slots := s.slots.set q.toNat (some (encodeFrame cmd ((f.take (f.length - 2)).drop 2))), status := 0,
               staging := [], phase := .idle, delivered := s.delivered ++ [.ok .none] })
    ∧ (cmd ∉ s.cfg.cmdset → exec (.setCommand q cmd) s = .next
      { s with status := 1, staging := [], phase := .idle, delivered := s.delivered ++ [.error .invalidCommand] })

/-- SET_COMMAND writes offsets 1, n-2 and n-1 only, and the new checksum is the old one less the old command plus the new
(R92, where the spec derives both). -/
def Obligations.SetCommandWritesThreeBytes : Prop :=
  ∀ (s t : State) (q : SlotIx) (cmd : Byte) (f : Frame), s.Inv → slotExists s.cfg q = true → s.slot q = some f →
    exec (.setCommand q cmd) s = .next t →
    ∃ f', t.slot q = some f' ∧ f'.length = f.length
      ∧ (∀ i, i ≠ 1 → i + 2 < f.length → t.byte? q i = s.byte? q i)
      ∧ (cmd ∈ s.cfg.cmdset →
          byteAt f' 1 = cmd
          ∧ (storedChecksum f').toNat = (storedChecksum f).toNat - (byteAt f 1).toNat + cmd.toNat)

/-- SET_PARAMETERS on a held frame (R93): with at most `MAX_PARAMS` parameters the frame becomes the encoding of the command it
had, not tested again, and the new parameters; with more it ends with `TooManyParameters` and the frame is unchanged. -/
def Obligations.SetParametersReencodes : Prop :=
  ∀ (s : State) (q : SlotIx) (p : List Byte) (f : Frame) (cmd : Byte),
    slotExists s.cfg q = true → s.slot q = some f → f[1]? = some cmd →
    (p.length ≤ s.cfg.maxParams → exec (.setParameters q p) s = .next
      { s with slots := s.slots.set q.toNat (some (encodeFrame cmd p)), status := 0, staging := [], phase := .idle,
               delivered := s.delivered ++ [.ok .none] })
    ∧ (s.cfg.maxParams < p.length → exec (.setParameters q p) s = .next
      { s with status := 2, staging := [], phase := .idle, delivered := s.delivered ++ [.error .tooManyParameters] })

/-- The length law of SET_PARAMETERS (R94): changing the parameter count by `d` changes the frame's length by exactly `d`, and
the length byte is the new length. -/
def Obligations.SetParametersLengthLaw : Prop :=
  ∀ (s : State) (q : SlotIx) (p : List Byte) (f : Frame), s.Inv → slotExists s.cfg q = true → s.slot q = some f →
    p.length ≤ s.cfg.maxParams →
    ∃ t f', exec (.setParameters q p) s = .next t ∧ t.slot q = some f'
      ∧ (f'.length : Int) - f.length = (p.length : Int) - (f.length - 4)
      ∧ (byteAt f' 0).toNat = f'.length

/-- RECOMPUTE_CHECKSUM on any held bytes, consistent or not (R95): the last two bytes become the sum of the others, low byte
first, and no other byte of any slot changes. On a consistent frame it writes the two bytes already there, which the spec derives:
it ends with `OK` and changes no slot. -/
def Obligations.RecomputeChecksumWritesTheSum : Prop :=
  ∀ (s : State) (q : SlotIx) (f : Frame), slotExists s.cfg q = true → s.slot q = some f → 2 ≤ f.length →
    (∃ t f', exec (.recomputeChecksum q) s = .next t ∧ t.slot q = some f' ∧ f'.length = f.length
      ∧ (storedChecksum f').toNat = ((f.take (f.length - 2)).map BitVec.toNat).sum % 65536
      ∧ (∀ i, i + 2 < f.length → t.byte? q i = s.byte? q i)
      ∧ (∀ d, d ≠ q → t.slot d = s.slot d))
    ∧ (frameOk s.cfg f = true →
      exec (.recomputeChecksum q) s = .next
        { s with status := 0, staging := [], phase := .idle, delivered := s.delivered ++ [.ok .none] })

/-- Round trip (R100): NEW, TO_BYTES, FROM_BYTES of those bytes, COMMAND, PARAMETERS give the command and the parameters back,
and the two slots hold the same bytes. -/
def Obligations.FrameRoundTrip : Prop :=
  ∀ (s : State) (a b : SlotIx) (cmd : Byte) (p : List Byte),
    s.Inv → slotExists s.cfg a = true → slotExists s.cfg b = true → cmd ∈ s.cfg.cmdset → p.length ≤ s.cfg.maxParams →
    ∃ t1 t2 t3 t4 t5 raw,
      exec (.new a cmd p) s = .next t1 ∧ t1.delivered = s.delivered ++ [.ok .none]
      ∧ exec (.toBytes a) t1 = .next t2 ∧ t2.delivered = t1.delivered ++ [.ok (.bytes raw)]
      ∧ exec (.fromBytes b raw) t2 = .next t3 ∧ t3.delivered = t2.delivered ++ [.ok .none]
      ∧ exec (.command b) t3 = .next t4 ∧ t4.delivered = t3.delivered ++ [.ok (.byte cmd)]
      ∧ exec (.parameters b) t4 = .next t5 ∧ t5.delivered = t4.delivered ++ [.ok (.bytes p)]
      ∧ t5.slot b = some raw ∧ t5.slot a = some raw

/-! ### The accessors -/

/-- COMMAND, PARAMETERS, CHECKSUM and TO_BYTES on a held frame (R110 to R113) end with `OK` and return the byte at offset 1, the
bytes from 2 to n-3, the last two bytes as a number with the low byte first, and all the bytes; nothing else changes. -/
def Obligations.AccessorsReturnTheFields : Prop :=
  ∀ (s : State) (q : SlotIx) (len cmd lo hi : Byte) (p : List Byte), slotExists s.cfg q = true →
    s.slot q = some ([len, cmd] ++ p ++ [lo, hi]) →
    exec (.command q) s = .next { s with status := 0, staging := [], phase := .idle,
                                         delivered := s.delivered ++ [.ok (.byte cmd)] }
    ∧ exec (.parameters q) s = .next { s with status := 0, staging := [], phase := .idle,
                                              delivered := s.delivered ++ [.ok (.bytes p)] }
    ∧ exec (.checksum q) s = .next { s with status := 0, staging := [], phase := .idle,
                                            delivered := s.delivered ++
                                              [.ok (.half (BitVec.ofNat 16 (lo.toNat + 256 * hi.toNat)))] }
    ∧ exec (.toBytes q) s = .next { s with status := 0, staging := [], phase := .idle,
                                           delivered := s.delivered ++ [.ok (.bytes ([len, cmd] ++ p ++ [lo, hi]))] }

/-- An operation whose source slot is `Empty` ends with `SlotEmpty` and changes nothing else; SEND_FRAME and TX_FRAME before any
transport event (R33, R150, R154; the spec's own decision D5). -/
def Obligations.EmptySourceSlotIsReported : Prop :=
  ∀ (i : Instr) (s : State) (q : SlotIx), i.source? = some q → slotExists s.cfg q = true → s.slot q = none →
    exec i s = .next { s with status := 9, staging := [], phase := .idle,
                              delivered := s.delivered ++ [.error .slotEmpty] }

/-- A meaning run on a slot that does not exist also ends with `IllegalOp` and nothing else, for the pseudo-operations before
their handshake (the model's choice, assumption logs 14 and 15; the step never runs such an instruction). -/
def Obligations.MissingSlotIsIllegalOp : Prop :=
  ∀ (i : Instr) (s : State) (d : SlotIx), i.slot? = some d → slotExists s.cfg d = false →
    exec i s = .next { s with status := 10, staging := [], phase := .idle,
                              delivered := s.delivered ++ [.error .illegalOp] }

/-! ### The frame parser -/

/-- FROM_BYTES of a sequence within the limits whose first byte is its count and whose last two bytes are the sum of the rest
ends with `OK`, the slot holding the sequence itself (R120); its command is tested only if `PARSE_CHECK_COMMAND` is on (R124). -/
def Obligations.FromBytesHoldsAValidFrame : Prop :=
  ∀ (s : State) (d : SlotIx) (raw : List Byte), slotExists s.cfg d = true →
    s.cfg.minFrame ≤ raw.length → raw.length ≤ s.cfg.maxFrame → (byteAt raw 0).toNat = raw.length →
    le16 (byteAt raw (raw.length - 2)) (byteAt raw (raw.length - 1)) = sum16 (raw.take (raw.length - 2)) →
    (s.cfg.parseCheckCommand = true → byteAt raw 1 ∈ s.cfg.cmdset) →
    exec (.fromBytes d raw) s = .next
      { s with slots := s.slots.set d.toNat (some raw), status := 0, staging := [], phase := .idle,
               delivered := s.delivered ++ [.ok .none] }

/-- FROM_BYTES reports the first test that fails, in the order of R125: too long, then fewer than `MIN_FRAME` bytes or a first
byte that is not the count (R121, R122), then the checksum (R123), then the command if the switch is on (R124). No slot
changes. -/
def Obligations.FromBytesReportsTheFirstFailure : Prop :=
  ∀ (s : State) (d : SlotIx) (raw : List Byte) (k : ErrorKind), slotExists s.cfg d = true →
    (k = .frameTooLong ∧ s.cfg.maxFrame < raw.length
      ∨ k = .lengthMismatch ∧ raw.length ≤ s.cfg.maxFrame
        ∧ (raw.length < s.cfg.minFrame ∨ (byteAt raw 0).toNat ≠ raw.length)
      ∨ k = .checksumMismatch ∧ s.cfg.minFrame ≤ raw.length ∧ raw.length ≤ s.cfg.maxFrame
        ∧ (byteAt raw 0).toNat = raw.length
        ∧ le16 (byteAt raw (raw.length - 2)) (byteAt raw (raw.length - 1)) ≠ sum16 (raw.take (raw.length - 2))
      ∨ k = .invalidCommand ∧ frameOk s.cfg raw = true ∧ s.cfg.parseCheckCommand = true
        ∧ byteAt raw 1 ∉ s.cfg.cmdset) →
    exec (.fromBytes d raw) s = .next
      { s with status := k.code, staging := [], phase := .idle, delivered := s.delivered ++ [.error k] }

/-! ### The handshake -/

/-- RTS when the transport answers (R131, R132): one write of `SYNC_RTS` (0x55 by default), whose count is not examined
(the spec's own decision D10), one read of one byte, and no further event; `ACK_RTS` (0xAA) confirms, any other byte is a desync, a
fault is a fault (D11). -/
def Obligations.RtsExchange : Prop :=
  ∀ (s : State) (room : Nat) (tx' : List Nat) (rx' : List RxItem), s.tx = room :: tx' →
    (∀ b : Byte, s.rx = .byte b :: rx' →
      exec .rts s = .next
        { s with hs := if b = s.cfg.ackRts then .confirmed else .failed, tx := tx', rx := rx', staging := [],
                 phase := .idle, status := if b = s.cfg.ackRts then 0 else 6,
                 delivered := s.delivered ++ [if b = s.cfg.ackRts then .ok .none else .error .handshakeDesync],
                 trace := s.trace ++ [.write [s.cfg.syncRts] (min room 1), .read 1 (.bytes [b])] })
    ∧ (s.rx = .fault :: rx' →
      exec .rts s = .next
        { s with hs := .failed, tx := tx', rx := rx', staging := [], phase := .idle, status := 8,
                 delivered := s.delivered ++ [.error .transportFault],
                 trace := s.trace ++ [.write [s.cfg.syncRts] (min room 1), .read 1 .fault] })

/-- RTR when the transport answers (R133, R134, R135): a first byte other than `SYNC_RTR` (0xA5 by default) is a desync and
nothing is written; on it one write of `ACK_RTR` (0x5A), which confirms unless the transport takes no byte of it; a fault is a
fault (the spec's own decision D11). -/
def Obligations.RtrExchange : Prop :=
  ∀ (s : State) (rx' : List RxItem),
    (∀ b : Byte, s.rx = .byte b :: rx' → b ≠ s.cfg.syncRtr →
      exec .rtr s = .next
        { s with hs := .failed, rx := rx', staging := [], phase := .idle, status := 6,
                 delivered := s.delivered ++ [.error .handshakeDesync],
                 trace := s.trace ++ [.read 1 (.bytes [b])] })
    ∧ (s.rx = .fault :: rx' →
      exec .rtr s = .next
        { s with hs := .failed, rx := rx', staging := [], phase := .idle, status := 8,
                 delivered := s.delivered ++ [.error .transportFault],
                 trace := s.trace ++ [.read 1 .fault] })
    ∧ (∀ room tx', s.rx = .byte s.cfg.syncRtr :: rx' → s.tx = room :: tx' →
      exec .rtr s = .next
        { s with hs := if room = 0 then .failed else .confirmed, tx := tx', rx := rx', staging := [], phase := .idle,
                 status := if room = 0 then 7 else 0,
                 delivered := s.delivered ++ [if room = 0 then .error .transportShortWrite else .ok .none],
                 trace := s.trace ++ [.read 1 (.bytes [s.cfg.syncRtr]), .write [s.cfg.ackRtr] (min room 1)] })

/-- A failed exchange ends at once (R132, R134, R135; the expected and written bytes are the parameters', 0xAA, 0xA5 and 0x5A by
default): RTS on any reply but `ACK_RTS`, after one write and one read; RTR on any first byte but `SYNC_RTR`, after one read and no
write; RTR on a write that takes nothing, after one read and one write. What was read is consumed; nothing else is. -/
def Obligations.FailedHandshakesEndAtOnce : Prop :=
  ∀ (s : State) (b : Byte) (rx' : List RxItem), s.rx = .byte b :: rx' →
    (∀ room tx', b ≠ s.cfg.ackRts → s.tx = room :: tx' →
      ∃ t, exec .rts s = .next t ∧ t.phase = .idle ∧ t.hs = .failed
        ∧ t.delivered = s.delivered ++ [.error .handshakeDesync]
        ∧ t.trace = s.trace ++ [.write [s.cfg.syncRts] (min room 1), .read 1 (.bytes [b])] ∧ t.rx = rx' ∧ t.tx = tx')
    ∧ (b ≠ s.cfg.syncRtr →
      ∃ t, exec .rtr s = .next t ∧ t.phase = .idle ∧ t.hs = .failed
        ∧ t.delivered = s.delivered ++ [.error .handshakeDesync]
        ∧ t.trace = s.trace ++ [.read 1 (.bytes [b])] ∧ t.rx = rx' ∧ t.tx = s.tx)
    ∧ (∀ tx', b = s.cfg.syncRtr → s.tx = 0 :: tx' →
      ∃ t, exec .rtr s = .next t ∧ t.phase = .idle ∧ t.hs = .failed
        ∧ t.delivered = s.delivered ++ [.error .transportShortWrite]
        ∧ t.trace = s.trace ++ [.read 1 (.bytes [b]), .write [s.cfg.ackRtr] 0] ∧ t.rx = rx' ∧ t.tx = tx')

/-- Where RTS and RTR wait when the transport does not answer, and what has happened by then (R139, R195, which the spec derives):
RTS at its write in `Idle`, at its read in `SentSync`; RTR at its read and at its write in `Idle`. No outcome is delivered. -/
def Obligations.HandshakeWaitsWhereThePseudocodeStands : Prop :=
  ∀ s : State,
    (s.tx = [] → exec .rts s = .next { s with hs := .idle, phase := .rtsWrite none })
    ∧ (∀ room tx', s.tx = room :: tx' → s.rx = [] →
        exec .rts s = .next { s with hs := .sentSync, phase := .rtsRead none, tx := tx',
                                     trace := s.trace ++ [.write [s.cfg.syncRts] (min room 1)] })
    ∧ (s.rx = [] → exec .rtr s = .next { s with hs := .idle, phase := .rtrRead none })
    ∧ (∀ rx', s.rx = .byte s.cfg.syncRtr :: rx' → s.tx = [] →
        exec .rtr s = .next { s with hs := .idle, phase := .rtrWrite none, rx := rx',
                                     trace := s.trace ++ [.read 1 (.bytes [s.cfg.syncRtr])] })

/-- Outcome and terminal state agree (R136, which the spec derives): an exchange that has ended ended with `OK` exactly in
`Confirmed` and with an error exactly in `Failed`. -/
def Obligations.HandshakeOutcomeAgreesWithState : Prop :=
  ∀ (i : Instr) (s t : State), i ∈ [.rts, .rtr, .ackRts, .ackRtr] → exec i s = .next t → t.phase = .idle →
    (t.status = 0 ↔ t.hs = .confirmed) ∧ (t.status ≠ 0 ↔ t.hs = .failed)

/-- "There is no cross-call persisted state" (R25, R138; the register itself is the spec's decision D14): what `hs` holds when an
instruction begins changes nothing but, where the instruction leaves `hs` as it was, `hs` itself. -/
def Obligations.NothingDependsOnHeldHandshakeState : Prop :=
  ∀ (i : Instr) (s t : State) (h : Handshake), exec i s = .next t →
    (i.usesHandshake = false → exec i (s.setHs h) = .next (t.setHs h))
    ∧ (exec i (s.setHs h) = .next t ∨ t.hs = s.hs ∧ exec i (s.setHs h) = .next (t.setHs h))

/-- No operation's behaviour depends on `STATUS` or on what was delivered and traced before (R26; the register is the spec's
decision D4): started with another `STATUS` and other histories, an instruction changes everything else in the same way and adds
the same outcomes and events. -/
def Obligations.NothingDependsOnStatusOrHistory : Prop :=
  ∀ (i : Instr) (s t : State) (c : BitVec 4) (ds : List Delivery) (es : List Event), exec i s = .next t →
    ∃ (t' : State) (ds' : List Delivery) (es' : List Event),
      exec i { s with status := c, delivered := ds, trace := es } = .next t'
      ∧ t.delivered = s.delivered ++ ds' ∧ t'.delivered = ds ++ ds' ∧ t.trace = s.trace ++ es' ∧ t'.trace = es ++ es'
      ∧ t'.status = (if ds' = [] then c else t.status)
      ∧ { t' with status := t.status, delivered := t.delivered, trace := t.trace } = t

/-- The sentinel rows are the steps of the exchanges (R69, R130; the model's choice, assumption log 9): when the first step has
been made, the whole exchange is the second step from there; when it ends or waits in the first step, so does the exchange. -/
def Obligations.SentinelStepsComposeToTheExchange : Prop :=
  ∀ s t : State,
    (exec .syncRts s = .next t → t.phase = .idle → exec .rts s = exec .ackRts t)
    ∧ (exec .syncRtr s = .next t → t.phase = .idle → t.hs = .idle → exec .rtr s = exec .ackRtr t)
    ∧ (exec .syncRtr s = .next t → t.phase = .idle → t.hs ≠ .idle → exec .rtr s = .next t)

/-- Each sentinel row's step when the transport answers it (R69, R130; assumption log 9): the writes of SYNC_RTS and ACK_RTR and
the reads of ACK_RTS and SYNC_RTR, with the edges of R130, those of a fault among them (the spec's own decision D11; the codes are
D4's); and where each waits when the transport does not answer (R195; assumption log 7). -/
def Obligations.SentinelStepsFollowTheEdges : Prop :=
  ∀ s : State,
    (∀ room tx', s.tx = room :: tx' →
      exec .syncRts s = .next { s with hs := .sentSync, phase := .idle, tx := tx',
                                       trace := s.trace ++ [.write [s.cfg.syncRts] (min room 1)] }
      ∧ exec .ackRtr s = .next
          { s with hs := if room = 0 then .failed else .confirmed, tx := tx', staging := [], phase := .idle,
                   status := if room = 0 then 7 else 0,
                   delivered := s.delivered ++ [if room = 0 then .error .transportShortWrite else .ok .none],
                   trace := s.trace ++ [.write [s.cfg.ackRtr] (min room 1)] })
    ∧ (∀ b rx', s.rx = .byte b :: rx' →
      exec .ackRts s = .next
          { s with hs := if b = s.cfg.ackRts then .confirmed else .failed, rx := rx', staging := [], phase := .idle,
                   status := if b = s.cfg.ackRts then 0 else 6,
                   delivered := s.delivered ++ [if b = s.cfg.ackRts then .ok .none else .error .handshakeDesync],
                   trace := s.trace ++ [.read 1 (.bytes [b])] }
      ∧ (b = s.cfg.syncRtr → exec .syncRtr s = .next
          { s with hs := .idle, phase := .idle, rx := rx', trace := s.trace ++ [.read 1 (.bytes [b])] })
      ∧ (b ≠ s.cfg.syncRtr → exec .syncRtr s = .next
          { s with hs := .failed, rx := rx', staging := [], phase := .idle, status := 6,
                   delivered := s.delivered ++ [.error .handshakeDesync],
                   trace := s.trace ++ [.read 1 (.bytes [b])] }))
    ∧ (∀ rx', s.rx = .fault :: rx' →
      exec .ackRts s = .next
          { s with hs := .failed, rx := rx', staging := [], phase := .idle, status := 8,
                   delivered := s.delivered ++ [.error .transportFault], trace := s.trace ++ [.read 1 .fault] }
      ∧ exec .syncRtr s = .next
          { s with hs := .failed, rx := rx', staging := [], phase := .idle, status := 8,
                   delivered := s.delivered ++ [.error .transportFault], trace := s.trace ++ [.read 1 .fault] })
    ∧ (s.tx = [] →
      exec .syncRts s = .next { s with hs := .idle, phase := .syncRtsWrite }
      ∧ exec .ackRtr s = .next { s with hs := .idle, phase := .rtrWrite none })
    ∧ (s.rx = [] →
      exec .ackRts s = .next { s with hs := .sentSync, phase := .rtsRead none }
      ∧ exec .syncRtr s = .next { s with hs := .idle, phase := .syncRtrRead })

/-! ### The command names -/

/-- A command value has no meaning to the hardware but membership in `CMDSET` (R66, R68, R91; assumption log 8): the row of a
value of the set passes and changes nothing, and that of any other value ends with `InvalidCommand`. -/
def Obligations.CommandNamesOnlyTestMembership : Prop :=
  ∀ (i : Instr) (s : State) (v : Byte), i.commandValue? s.cfg = some v →
    encode s.cfg i = .wire v
    ∧ (v ∈ s.cfg.cmdset → exec i s = .next s)
    ∧ (v ∉ s.cfg.cmdset → exec i s = .next
        { s with status := 1, staging := [], phase := .idle, delivered := s.delivered ++ [.error .invalidCommand] })

/-! ### Frame transfer -/

/-- TX_FRAME when the transport answers (R150, R151): one write call with all the frame's bytes; a count below the length is
`TransportShortWrite` (the spec's own decision D12), else `OK`; the slot is not changed. When it does not answer, the operation
waits (R195); how a waiting operation is held is assumption log 7. -/
def Obligations.TxFrameWritesTheHeldBytes : Prop :=
  ∀ (s : State) (q : SlotIx) (f : Frame), slotExists s.cfg q = true → s.slot q = some f →
    (∀ room tx', s.tx = room :: tx' →
      exec (.txFrame q) s = .next
        { s with tx := tx', staging := [], phase := .idle, status := if room < f.length then 7 else 0,
                 delivered := s.delivered ++ [if room < f.length then .error .transportShortWrite else .ok .none],
                 trace := s.trace ++ [.write f (min room f.length)] })
    ∧ (s.tx = [] → exec (.txFrame q) s = .next { s with phase := .txWrite q })

/-- The bytes on the wire (R41): when TX_FRAME ends with `OK`, exactly the frame's bytes have gone out, offset 0 first. -/
def Obligations.TxFrameSendsOffsetZeroFirst : Prop :=
  ∀ (s t : State) (q : SlotIx) (f : Frame), slotExists s.cfg q = true → s.slot q = some f →
    exec (.txFrame q) s = .next t → t.phase = .idle → t.status = 0 →
    sentBytes t.trace = sentBytes s.trace ++ f

/-- RX_FRAME of a valid frame (R152): it reads the length byte, then the `L - 1` bytes that remain, and the slot holds what came;
no byte beyond is taken. -/
def Obligations.RxFrameHoldsTheReceivedFrame : Prop :=
  ∀ (s : State) (d : SlotIx) (b : Byte) (l : List Byte) (rx' : List RxItem), slotExists s.cfg d = true → s.cfg.Wf →
    s.rx = (b :: l).map RxItem.byte ++ rx' → frameOk s.cfg (b :: l) = true →
    (s.cfg.parseCheckCommand = true → byteAt (b :: l) 1 ∈ s.cfg.cmdset) →
    exec (.rxFrame d) s = .next
      { s with slots := s.slots.set d.toNat (some (b :: l)), rx := rx', status := 0, staging := [], phase := .idle,
               delivered := s.delivered ++ [.ok .none],
               trace := s.trace ++ [.read 1 (.bytes [b]), .read (b.toNat - 1) (.bytes l)] }

/-- RX_FRAME of announced bytes that are no frame (R152, R153; what it does for a length byte below 4 is the spec's own decision
D13): it takes as many bytes as the length byte announces, one at least, makes no second read for 0 or 1, and ends with the
parser's error; no slot changes. -/
def Obligations.RxFrameReportsTheParsersError : Prop :=
  ∀ (s : State) (d : SlotIx) (b : Byte) (l : List Byte) (rx' : List RxItem) (k : ErrorKind),
    slotExists s.cfg d = true → s.rx = (b :: l).map RxItem.byte ++ rx' → l.length = b.toNat - 1 →
    parse s.cfg (b :: l) = .error k →
    exec (.rxFrame d) s = .next
      { s with rx := rx', status := k.code, staging := [], phase := .idle, delivered := s.delivered ++ [.error k],
               trace := s.trace ++ ([.read 1 (.bytes [b])] ++
                 if 2 ≤ b.toNat then [.read (b.toNat - 1) (.bytes l)] else []) }

/-- RX_FRAME on a stream fault at either read ends with `TransportFault`, the bytes before the fault being lost (R152, R153 (f);
the spec's own decision D11); on a stream that does not hold the bytes yet it waits and takes none (R195). -/
def Obligations.RxFrameFaultsAndWaits : Prop :=
  ∀ (s : State) (d : SlotIx), slotExists s.cfg d = true →
    (∀ rx', s.rx = .fault :: rx' → exec (.rxFrame d) s = .next
      { s with rx := rx', status := 8, staging := [], phase := .idle, delivered := s.delivered ++ [.error .transportFault],
               trace := s.trace ++ [.read 1 .fault] })
    ∧ (∀ (b : Byte) (l : List Byte) rx', s.rx = (b :: l).map RxItem.byte ++ .fault :: rx' → l.length + 1 < b.toNat →
      exec (.rxFrame d) s = .next
        { s with rx := rx', status := 8, staging := [], phase := .idle,
                 delivered := s.delivered ++ [.error .transportFault],
                 trace := s.trace ++ [.read 1 (.bytes [b]), .read (b.toNat - 1) .fault] })
    ∧ (s.rx = [] → exec (.rxFrame d) s = .next { s with phase := .rxLength d })
    ∧ (∀ (b : Byte) (l : List Byte), s.rx = (b :: l).map RxItem.byte → l.length + 1 < b.toNat →
      exec (.rxFrame d) s = .next
        { s with rx := l.map RxItem.byte, staging := [b], phase := .rxRest d,
                 trace := s.trace ++ [.read 1 (.bytes [b])] })

/-- SEND_FRAME on a held frame is RTS and then, only if its outcome is `OK`, TX_FRAME (R154): where RTS ends otherwise, so does
SEND_FRAME, and no frame byte is written; where RTS waits for the transport, so does SEND_FRAME, at the same call, with the same
events made and no outcome (R195). The joining is the spec's own decision D21; that TX_FRAME begins with RTS's own outcome
delivered and latched is assumption log 13, and how a waiting operation is held is assumption log 7. -/
def Obligations.SendFrameIsRtsThenTxFrame : Prop :=
  ∀ (s t : State) (q : SlotIx) (f : Frame), slotExists s.cfg q = true → s.slot q = some f → exec .rts s = .next t →
    (t.phase = .idle ∨ t.phase = .rtsWrite none ∨ t.phase = .rtsRead none)
    ∧ (t.phase = .idle → exec (.sendFrame q) s = if t.status = 0 then exec (.txFrame q) t else .next t)
    ∧ (t.phase = .rtsWrite none →
        t.delivered = s.delivered ∧ exec (.sendFrame q) s = .next { t with phase := .rtsWrite (some q) })
    ∧ (t.phase = .rtsRead none →
        t.delivered = s.delivered ∧ exec (.sendFrame q) s = .next { t with phase := .rtsRead (some q) })

/-- RECV_FRAME is RTR and then, only if its outcome is `OK`, RX_FRAME (R155): where RTR ends otherwise, so does RECV_FRAME, and
no length byte is read; where RTR waits for the transport, so does RECV_FRAME, at the same call, with the same events made and no
outcome (R195). That RX_FRAME begins with RTR's own outcome delivered and latched is assumption log 13, and how a waiting
operation is held is assumption log 7. -/
def Obligations.RecvFrameIsRtrThenRxFrame : Prop :=
  ∀ (s t : State) (d : SlotIx), slotExists s.cfg d = true → exec .rtr s = .next t →
    (t.phase = .idle ∨ t.phase = .rtrRead none ∨ t.phase = .rtrWrite none)
    ∧ (t.phase = .idle → exec (.recvFrame d) s = if t.status = 0 then exec (.rxFrame d) t else .next t)
    ∧ (t.phase = .rtrRead none →
        t.delivered = s.delivered ∧ exec (.recvFrame d) s = .next { t with phase := .rtrRead (some d) })
    ∧ (t.phase = .rtrWrite none →
        t.delivered = s.delivered ∧ exec (.recvFrame d) s = .next { t with phase := .rtrWrite (some d) })

/-- SEND_FRAME and RECV_FRAME run to the end (R154, R155) when the transport confirms the handshake and carries the frame: the
events in order, both outcomes delivered (assumption log 13), the frame sent or held. -/
def Obligations.JoinedSequencesRunToTheEnd : Prop :=
  ∀ (s : State) (d : SlotIx) (b : Byte) (l : List Byte) (room1 : Nat) (rx' : List RxItem), slotExists s.cfg d = true →
    (∀ room2 tx', s.slot d = some (b :: l) → s.tx = room1 :: room2 :: tx' → l.length < room2 →
      s.rx = .byte s.cfg.ackRts :: rx' →
      exec (.sendFrame d) s = .next
        { s with hs := .confirmed, tx := tx', rx := rx', status := 0, staging := [], phase := .idle,
                 delivered := s.delivered ++ [.ok .none, .ok .none],
                 trace := s.trace ++ [.write [s.cfg.syncRts] (min room1 1), .read 1 (.bytes [s.cfg.ackRts]),
                                      .write (b :: l) (l.length + 1)] })
    ∧ (∀ tx', s.cfg.Wf → s.tx = room1 :: tx' → 0 < room1 →
      s.rx = .byte s.cfg.syncRtr :: (b :: l).map RxItem.byte ++ rx' → frameOk s.cfg (b :: l) = true →
      (s.cfg.parseCheckCommand = true → byteAt (b :: l) 1 ∈ s.cfg.cmdset) →
      exec (.recvFrame d) s = .next
        { s with slots := s.slots.set d.toNat (some (b :: l)), hs := .confirmed, tx := tx', rx := rx', status := 0,
                 staging := [], phase := .idle, delivered := s.delivered ++ [.ok .none, .ok .none],
                 trace := s.trace ++ [.read 1 (.bytes [s.cfg.syncRtr]), .write [s.cfg.ackRtr] 1,
                                      .read 1 (.bytes [b]), .read (b.toNat - 1) (.bytes l)] })

/-! ### Waiting -/

/-- "a hang on the transport hangs the caller" (R195): with a transport that answers nothing more, a waiting operation stays as
it is; no outcome is made up. -/
def Obligations.SilentTransportHangsTheOperation : Prop :=
  ∀ s : State, s.Inv → s.phase ≠ .idle → s.rx = [] → s.tx = [] → step s = .next s

/-- Waiting is invisible (the model's cut at the transport calls, R139, which the spec derives): an operation that waits and is
taken up again when the transport has supplied more ends as if all of it had been there when the operation began. -/
def Obligations.ResumedOperationEqualsUninterrupted : Prop :=
  ∀ (i : Instr) (s t : State) (l : List RxItem) (g : List Nat),
    exec i s = .next t → t.phase ≠ .idle → s.phase = .idle →
    exec i (s.supply l g) = .next (resumePhase t.phase (t.supply l g))

/-! ### Frames: what is left unchanged -/

/-- An instruction changes no byte of any slot but the one it names as its destination, and none at all if it names none (R23). -/
def Obligations.OnlyTheDestinationSlotChanges : Prop :=
  ∀ (i : Instr) (s t : State), exec i s = .next t →
    (∀ d, i.dest? ≠ some d → ∀ n, t.byte? d n = s.byte? d n)
    ∧ t.slots.length = s.slots.length
    ∧ (i.dest? = none → t.slots = s.slots)

/-- The parameters (R27) and the host's plan are changed by no instruction; the trace and the delivered outcomes only grow (R45,
R50); an instruction that runs no handshake leaves `hs` (R168), and one that uses no transport leaves both its streams and the
trace (R29). -/
def Obligations.RegistersAndStreamsFrame : Prop :=
  ∀ (i : Instr) (s t : State), exec i s = .next t →
    t.cfg = s.cfg ∧ t.requests = s.requests ∧ s.trace <+: t.trace ∧ s.delivered <+: t.delivered
    ∧ t.rx <:+ s.rx ∧ t.tx <:+ s.tx
    ∧ (i.usesHandshake = false → t.hs = s.hs)
    ∧ (i.usesTransport = false → t.rx = s.rx ∧ t.tx = s.tx ∧ t.trace = s.trace)

/-- "Two slots never share storage: an operation on one slot never reads or changes another slot" (R20, where the slots are the
spec's decision D2): with any other content in a slot it does not name, an instruction does the same and keeps that content. -/
def Obligations.OtherSlotsAreNeitherReadNorWritten : Prop :=
  ∀ (i : Instr) (s t : State) (e : SlotIx) (o : Option Frame), i.slot? ≠ some e → exec i s = .next t →
    exec i { s with slots := s.slots.set e.toNat o } = .next { t with slots := t.slots.set e.toNat o }

/-! ### Whole-machine rules -/

/-- A step that leaves `STATUS` with an error code has changed no slot, whichever operation it was (R44, R168; that the
destination keeps what it held is the spec's own decision D6). -/
def Obligations.ErrorsChangeNoSlot : Prop :=
  ∀ s t : State, step s = .next t → t.status ≠ 0 → t.slots = s.slots

/-- The outcome matrix (R177, which the spec derives): an instruction of the block ends only with `OK` or with an error of its row.
`FrameTooLong` has no place in RX_FRAME's row because a length byte is at most `MAX_FRAME`, 255. That a joined sequence delivers two
outcomes is assumption log 13; the rows of the command names and the sentinels are assumption logs 8 and 9. -/
def Obligations.OutcomesAreThoseOfTheMatrix : Prop :=
  ∀ (i : Instr) (s t : State), i.wellFormed s.cfg = true → s.cfg.maxFrame = 255 → s.cfg.Wf → exec i s = .next t →
    ∃ ds, t.delivered = s.delivered ++ ds ∧ ds.length ≤ 2 ∧ ∀ k, .error k ∈ ds → k ∈ i.errors s.cfg

/-- `STATUS` is the code of the last outcome delivered, and every step keeps it so (R26, R160). -/
def Obligations.StepKeepsStatusLatched : Prop :=
  ∀ s t : State, s.StatusLatched → step s = .next t → t.StatusLatched

/-- The outcome codes (R161): 0 for `OK`, 1 to 10 for the error kinds in the order of the table, all different (the numbers are
the spec's own decision D4). -/
def Obligations.OutcomeCodesAreTheTables : Prop :=
  (∀ r, (Delivery.ok r).code = 0)
  ∧ [ErrorKind.invalidCommand, .tooManyParameters, .frameTooLong, .lengthMismatch, .checksumMismatch, .handshakeDesync,
      .transportShortWrite, .transportFault, .slotEmpty, .illegalOp].map ErrorKind.code = [1, 2, 3, 4, 5, 6, 7, 8, 9, 10]
  ∧ ∀ k k' : ErrorKind, k.code = k'.code → k = k'

/-- The state after reset meets the invariant. -/
def Obligations.ResetMeetsTheInvariant : Prop := State.reset.Inv

/-- Every step keeps the invariant, so every held frame satisfies I1, I2 and I3 between any two operations (R22, R101): its first
byte is its length, its last two bytes are the sum of the others, its length is within the limits. The invariant also says that
there are `NSLOT` slots (R20; the form of the slot file is assumption log 16), that `STATUS` is an outcome code (R26), that the
parameters are ones the rules assume (assumption log 18), and where a waiting operation stands (R139; assumption log 7). -/
def Obligations.StepKeepsTheInvariant : Prop :=
  ∀ s t : State, s.Inv → step s = .next t → t.Inv

/-- With `PARSE_CHECK_COMMAND` on, the command of every held frame is in `CMDSET` and every step keeps it so (I4 of R22, R124). -/
def Obligations.StepKeepsCommandsVettedUnderTheSwitch : Prop :=
  ∀ s t : State, s.Inv → s.cfg.parseCheckCommand = true → s.CommandsVetted → step s = .next t → t.CommandsVetted

end
end

