-- ==== Sys2Proof/Laws/Bytes.lean ====
section
/-! SUPPORT. Byte order, the checksum and the frame format: one lemma per function. -/

namespace Sys2Proof.Machine

theorem le16_lo8_hi8 (v : Half) : le16 (lo8 v) (hi8 v) = v := by
  unfold le16 lo8 hi8
  apply BitVec.eq_of_getLsbD_eq
  intro i hi
  simp only [BitVec.getLsbD_append, BitVec.getLsbD_extractLsb']
  by_cases h : i < 8
  · simp [h]
  · have : i - 8 < 8 := by omega
    simp [h, this]
    congr 1
    omega

theorem le16_toNat (b0 b1 : Byte) : (le16 b0 b1).toNat = b0.toNat + 256 * b1.toNat := by
  have := b0.isLt
  simp only [le16, BitVec.toNat_append, Nat.shiftLeft_eq]
  rw [← Nat.shiftLeft_eq, ← Nat.shiftLeft_add_eq_or_of_lt this, Nat.shiftLeft_eq]
  omega

/-- Two checksum fields are equal only if their bytes are. -/
theorem le16_inj {a b c d : Byte} (h : le16 a b = le16 c d) : a = c ∧ b = d := by
  have := congrArg BitVec.toNat h
  rw [le16_toNat, le16_toNat] at this
  have := a.isLt; have := b.isLt; have := c.isLt; have := d.isLt
  constructor <;> apply BitVec.eq_of_toNat_eq <;> omega

@[simp] theorem sum16_nil : sum16 [] = 0 := rfl
@[simp] theorem sum16_cons (b : Byte) (l : List Byte) : sum16 (b :: l) = b.zeroExtend 16 + sum16 l := rfl

/-- The order of addition does not matter (R98), so a sum can be taken in two parts. -/
theorem sum16_append (l m : List Byte) : sum16 (l ++ m) = sum16 l + sum16 m := by
  induction l with
  | nil => simp
  | cons b l ih => simp [ih, BitVec.add_assoc]

/-- `sum16` is the sum modulo 65536 (R10). -/
theorem sum16_toNat (l : List Byte) : (sum16 l).toNat = (l.map BitVec.toNat).sum % 65536 := by
  induction l with
  | nil => simp
  | cons b l ih =>
    have := b.isLt
    simp only [sum16_cons, BitVec.toNat_add, ih, List.map_cons, List.sum_cons]
    simp

/-- A sum of bytes is at most 255 for each. -/
theorem sum_toNat_le (l : List Byte) : (l.map BitVec.toNat).sum ≤ 255 * l.length := by
  induction l with
  | nil => simp
  | cons b l ih =>
    have := b.isLt
    simp only [List.map_cons, List.sum_cons, List.length_cons]
    omega

@[simp] theorem slice_zero (l : List Byte) (b : Nat) : slice l 0 b = l.take b := by simp [slice]

@[simp] theorem length_withChecksum (h : List Byte) : (withChecksum h).length = h.length + 2 := by simp [withChecksum]

@[simp] theorem summedBytes_withChecksum (h : List Byte) : summedBytes (withChecksum h) = h := by
  simp [summedBytes, withChecksum]

@[simp] theorem storedChecksum_withChecksum (h : List Byte) : storedChecksum (withChecksum h) = sum16 h := by
  simp [storedChecksum, withChecksum, byteAt, le16_lo8_hi8]

@[simp] theorem length_encodeFrame (cmd : Byte) (p : List Byte) : (encodeFrame cmd p).length = 4 + p.length := by
  simp [encodeFrame]; omega

@[simp] theorem byteAt_encodeFrame_one (cmd : Byte) (p : List Byte) : byteAt (encodeFrame cmd p) 1 = cmd := by
  simp [encodeFrame, withChecksum, byteAt]

theorem byteAt_encodeFrame_zero (cmd : Byte) (p : List Byte) (h : p.length ≤ 251) :
    (byteAt (encodeFrame cmd p) 0).toNat = 4 + p.length := by
  simp [encodeFrame, withChecksum, byteAt]; omega

@[simp] theorem paramsOf_encodeFrame (cmd : Byte) (p : List Byte) : paramsOf (encodeFrame cmd p) = p := by
  have h : 4 + p.length - 2 = p.length + 2 := by omega
  simp [paramsOf, slice, h]
  simp [encodeFrame, withChecksum]

/-- A sequence with two bytes at least is its covered bytes and its last two. -/
theorem split_last_two {f : Frame} (h : 2 ≤ f.length) :
    f = summedBytes f ++ [byteAt f (f.length - 2), byteAt f (f.length - 1)] := by
  have h1 : f.length - 2 < f.length := by omega
  have h2 : f.length - 1 < f.length := by omega
  have h3 : f.drop (f.length - 2) = [byteAt f (f.length - 2), byteAt f (f.length - 1)] := by
    rw [List.drop_eq_getElem_cons h1, show f.length - 2 + 1 = f.length - 1 by omega, List.drop_eq_getElem_cons h2,
      show f.length - 1 + 1 = f.length by omega, List.drop_length]
    simp [byteAt, List.getD_eq_getElem?_getD, List.getElem?_eq_getElem h1, List.getElem?_eq_getElem h2]
  rw [← h3, summedBytes, slice_zero, List.take_append_drop]

theorem length_summedBytes (f : Frame) : (summedBytes f).length = f.length - 2 := by
  simp [summedBytes]

/-- The two checksum bytes of a sequence whose field is the sum of the rest are the ones `withChecksum` writes. -/
theorem withChecksum_summedBytes {f : Frame} (h : 2 ≤ f.length) (hs : storedChecksum f = sum16 (summedBytes f)) :
    withChecksum (summedBytes f) = f := by
  conv_rhs => rw [split_last_two h]
  have := le16_inj (show le16 (byteAt f (f.length - 2)) (byteAt f (f.length - 1))
      = le16 (lo8 (sum16 (summedBytes f))) (hi8 (sum16 (summedBytes f))) by rw [le16_lo8_hi8]; exact hs)
  rw [withChecksum, this.1, this.2]

theorem frameOk_iff (c : Config) (f : Frame) : frameOk c f = true ↔
    c.minFrame ≤ f.length ∧ f.length ≤ c.maxFrame ∧ (byteAt f 0).toNat = f.length
      ∧ storedChecksum f = sum16 (summedBytes f) := by
  simp [frameOk, and_assoc]

/-- A frame of four bytes at least, taken apart. -/
theorem frame_parts {f : Frame} (h : 4 ≤ f.length) :
    summedBytes f = byteAt f 0 :: byteAt f 1 :: paramsOf f ∧ (paramsOf f).length = f.length - 4 := by
  match f, h with
  | a :: b :: l, h =>
    simp only [List.length_cons] at h
    obtain ⟨n, hn⟩ : ∃ n, l.length = n + 2 := ⟨l.length - 2, by omega⟩
    simp [summedBytes, paramsOf, slice, byteAt, hn]

/-- The encoder's frames satisfy I1, I2 and I3 (R64). -/
theorem frameOk_encodeFrame {c : Config} (hc : c.Wf) (cmd : Byte) {p : List Byte} (h : p.length ≤ c.maxParams) :
    frameOk c (encodeFrame cmd p) = true := by
  have h1 := hc.identity; have h2 := hc.minFrame; have h3 := hc.lengthByte
  rw [frameOk_iff]
  refine ⟨by simp; omega, by simp; omega, ?_, ?_⟩
  · rw [byteAt_encodeFrame_zero _ _ (by omega), length_encodeFrame]
  · simp [encodeFrame]

theorem memory_wf_iff (c : Config) (m : Memory) : m.wf c = true ↔
    m.length = c.nslot ∧ ∀ f, some f ∈ m → frameOk c f = true := by
  simp only [Memory.wf, Bool.and_eq_true, decide_eq_true_eq, List.all_eq_true]
  constructor
  · rintro ⟨h, hm⟩; exact ⟨h, fun f hf => by simpa using hm _ hf⟩
  · rintro ⟨h, hm⟩
    refine ⟨h, fun o ho => ?_⟩
    cases o with
    | none => rfl
    | some f => simpa using hm f ho

/-- Every slot write of a consistent frame keeps the slot file's canonical form. -/
theorem memory_wf_set {c : Config} {m : Memory} (h : m.wf c = true) (n : Nat) {f : Frame} (hf : frameOk c f = true) :
    Memory.wf c (m.set n (some f)) = true := by
  rw [memory_wf_iff] at h ⊢
  refine ⟨by simpa using h.1, fun g hg => ?_⟩
  rcases List.mem_or_eq_of_mem_set hg with hg | hg
  · exact h.2 g hg
  · cases hg; exact hf

/-- The slot file after reset has the canonical form. -/
theorem memory_wf_empty (c : Config) : Memory.wf c (List.replicate c.nslot none) = true := by
  rw [memory_wf_iff]
  exact ⟨by simp, fun f hf => by simp at hf⟩

end Sys2Proof.Machine
end

