-- ==== Sys2Proof/Laws/Decode.lean ====
section
/-! SUPPORT. The fields of a packed request header, and what the decoder lets through. -/

namespace Sys2Proof

@[simp] theorem opField_pack (op : BitVec 4) (slot : SlotIx) (cmd : Byte) : opField (packHeader op slot cmd) = op := by
  apply BitVec.eq_of_getLsbD_eq
  intro i hi
  simp only [opField, packHeader, BitVec.getLsbD_extractLsb', BitVec.getLsbD_append]
  rw [if_neg (by omega), if_neg (by omega)]
  simp [hi, show 12 + i - 8 - 4 = i by omega]

@[simp] theorem slotField_pack (op : BitVec 4) (slot : SlotIx) (cmd : Byte) : slotField (packHeader op slot cmd) = slot := by
  apply BitVec.eq_of_getLsbD_eq
  intro i hi
  simp only [slotField, packHeader, BitVec.getLsbD_extractLsb', BitVec.getLsbD_append]
  rw [if_neg (by omega), if_pos (by omega)]
  simp [hi, show 8 + i - 8 = i by omega]

@[simp] theorem cmdField_pack (op : BitVec 4) (slot : SlotIx) (cmd : Byte) : cmdField (packHeader op slot cmd) = cmd := by
  apply BitVec.eq_of_getLsbD_eq
  intro i hi
  simp only [cmdField, packHeader, BitVec.getLsbD_extractLsb', BitVec.getLsbD_append]
  rw [if_pos (by omega)]
  simp [hi]

/-- `checkSlot` lets an instruction through exactly when its slot exists. -/
theorem checkSlot_ok_iff (c : Config) (i j : Instr) : checkSlot c i = .ok j ↔ j = i ∧ i.wellFormed c = true := by
  unfold checkSlot Instr.wellFormed
  cases i.slot? with
  | none => simp [eq_comm]
  | some d => by_cases h : slotExists c d = true <;> simp [h, eq_comm]

/-- What `decode` answers, said once. -/
theorem decode_ok_iff (c : Config) (r : Request) (i : Instr) :
    decode c r = .ok i ↔ decodeBits c r = .ok i ∧ i.wellFormed c = true := by
  unfold decode
  cases decodeBits c r with
  | error e => simp
  | ok j => simp only [checkSlot_ok_iff, Except.ok.injEq]; constructor <;> (rintro ⟨rfl, h⟩; exact ⟨rfl, h⟩)

/-! ### The wire rows -/

/-- Every wire row is its own canonical form, exists on every block, and is encoded as its byte. -/
theorem wireRows_spec (c : Config) {row : Byte × Instr} (h : row ∈ wireRows c) :
    encode c row.2 = .wire row.1 ∧ row.2.canonical c = row.2 ∧ row.2.wellFormed c = true := by
  simp only [wireRows, List.cons_append, List.nil_append, List.mem_cons, List.not_mem_nil, or_false] at h
  rcases h with rfl | rfl | rfl | rfl | rfl | rfl | rfl | rfl | rfl | rfl | rfl | rfl | rfl | rfl | rfl | rfl | rfl | rfl | rfl <;>
    exact ⟨rfl, rfl, rfl⟩

/-- An instruction encoded as one byte is, up to its first name, a wire row with that byte. -/
theorem mem_wireRows_of_encode {c : Config} {i : Instr} {b : Byte} (h : encode c i = .wire b) :
    (b, i.canonical c) ∈ wireRows c := by
  cases i <;> simp only [encode, Request.wire.injEq, reduceCtorEq] at h <;> subst h <;> simp [wireRows, Instr.canonical]

/-- No instruction stands in two wire rows. -/
theorem wireRows_nodup (c : Config) : ((wireRows c).map Prod.snd).Nodup := by
  simp [wireRows]

/-- What `decodeWire` answers, said once: a row that has the byte, every row before it having another. -/
theorem decodeWire_ok_iff (c : Config) (b : Byte) (i : Instr) :
    decodeWire c b = .ok i ↔ (b, i) ∈ wireRows c ∧ ∀ row ∈ (wireRows c).takeWhile fun row => row.2 != i, row.1 ≠ b := by
  have key : ∀ l : List (Byte × Instr), (l.map Prod.snd).Nodup →
      ((l.find? fun row => row.1 == b) = some (b, i) ↔
        (b, i) ∈ l ∧ ∀ row ∈ l.takeWhile fun row => row.2 != i, row.1 ≠ b) := by
    intro l hl
    induction l with
    | nil => simp
    | cons r l ih =>
      obtain ⟨b', j⟩ := r
      simp only [List.map_cons, List.nodup_cons] at hl
      have hj : j = i → (b, i) ∉ l := fun e hm => hl.1 (e ▸ List.mem_map_of_mem (f := Prod.snd) hm)
      by_cases h1 : b' = b <;> by_cases h2 : j = i
      · simp [h1, h2]
      · have h3 : i ≠ j := fun e => h2 e.symm
        simp [h1, h2, h3]
      · have h4 : (b, i) ∉ l := hj h2
        have h5 : ¬ b = b' := fun e => h1 e.symm
        simp [h1, h5, h4, h2, ih hl.2]
      · have h5 : ¬ b = b' := fun e => h1 e.symm
        have h6 : ¬ i = j := fun e => h2 e.symm
        simp [h1, h2, h5, h6, ih hl.2]
  rw [← key _ (wireRows_nodup c)]
  unfold decodeWire
  cases hf : (wireRows c).find? fun row => row.1 == b with
  | none => simp
  | some r =>
    have hb : r.1 = b := by simpa using List.find?_some hf
    simp [← hb, Prod.ext_iff]

/-- What `ownByte` says of a wire row. -/
theorem ownByte_iff {c : Config} {i : Instr} {b : Byte} (h : encode c i = .wire b) :
    i.ownByte c = true ↔ ∀ row ∈ (wireRows c).takeWhile fun row => row.2 != i.canonical c, row.1 ≠ b := by
  simp [Instr.ownByte, h]

end Sys2Proof
end

