-- ==== Sys2Proof/Laws/State.lean ====
section
/-! SUPPORT. What each named update of the state leaves in each field, so that no later proof unfolds a record update. -/

namespace Sys2Proof.Machine

variable (s : State)

@[simp] theorem State.setSlot_cfg (d : SlotIx) (f : Frame) : (s.setSlot d f).cfg = s.cfg := rfl
@[simp] theorem State.setSlot_slots (d : SlotIx) (f : Frame) : (s.setSlot d f).slots = s.slots.set d.toNat (some f) := rfl
@[simp] theorem State.setSlot_hs (d : SlotIx) (f : Frame) : (s.setSlot d f).hs = s.hs := rfl
@[simp] theorem State.setSlot_status (d : SlotIx) (f : Frame) : (s.setSlot d f).status = s.status := rfl
@[simp] theorem State.setSlot_staging (d : SlotIx) (f : Frame) : (s.setSlot d f).staging = s.staging := rfl
@[simp] theorem State.setSlot_phase (d : SlotIx) (f : Frame) : (s.setSlot d f).phase = s.phase := rfl
@[simp] theorem State.setSlot_delivered (d : SlotIx) (f : Frame) : (s.setSlot d f).delivered = s.delivered := rfl
@[simp] theorem State.setSlot_trace (d : SlotIx) (f : Frame) : (s.setSlot d f).trace = s.trace := rfl
@[simp] theorem State.setSlot_rx (d : SlotIx) (f : Frame) : (s.setSlot d f).rx = s.rx := rfl
@[simp] theorem State.setSlot_tx (d : SlotIx) (f : Frame) : (s.setSlot d f).tx = s.tx := rfl
@[simp] theorem State.setSlot_requests (d : SlotIx) (f : Frame) : (s.setSlot d f).requests = s.requests := rfl

@[simp] theorem State.setHs_cfg (h : Handshake) : (s.setHs h).cfg = s.cfg := rfl
@[simp] theorem State.setHs_slots (h : Handshake) : (s.setHs h).slots = s.slots := rfl
@[simp] theorem State.setHs_hs (h : Handshake) : (s.setHs h).hs = h := rfl
@[simp] theorem State.setHs_status (h : Handshake) : (s.setHs h).status = s.status := rfl
@[simp] theorem State.setHs_staging (h : Handshake) : (s.setHs h).staging = s.staging := rfl
@[simp] theorem State.setHs_phase (h : Handshake) : (s.setHs h).phase = s.phase := rfl
@[simp] theorem State.setHs_delivered (h : Handshake) : (s.setHs h).delivered = s.delivered := rfl
@[simp] theorem State.setHs_trace (h : Handshake) : (s.setHs h).trace = s.trace := rfl
@[simp] theorem State.setHs_rx (h : Handshake) : (s.setHs h).rx = s.rx := rfl
@[simp] theorem State.setHs_tx (h : Handshake) : (s.setHs h).tx = s.tx := rfl
@[simp] theorem State.setHs_requests (h : Handshake) : (s.setHs h).requests = s.requests := rfl

@[simp] theorem State.setStaging_cfg (l : List Byte) : (s.setStaging l).cfg = s.cfg := rfl
@[simp] theorem State.setStaging_slots (l : List Byte) : (s.setStaging l).slots = s.slots := rfl
@[simp] theorem State.setStaging_hs (l : List Byte) : (s.setStaging l).hs = s.hs := rfl
@[simp] theorem State.setStaging_status (l : List Byte) : (s.setStaging l).status = s.status := rfl
@[simp] theorem State.setStaging_staging (l : List Byte) : (s.setStaging l).staging = l := rfl
@[simp] theorem State.setStaging_phase (l : List Byte) : (s.setStaging l).phase = s.phase := rfl
@[simp] theorem State.setStaging_delivered (l : List Byte) : (s.setStaging l).delivered = s.delivered := rfl
@[simp] theorem State.setStaging_trace (l : List Byte) : (s.setStaging l).trace = s.trace := rfl
@[simp] theorem State.setStaging_rx (l : List Byte) : (s.setStaging l).rx = s.rx := rfl
@[simp] theorem State.setStaging_tx (l : List Byte) : (s.setStaging l).tx = s.tx := rfl
@[simp] theorem State.setStaging_requests (l : List Byte) : (s.setStaging l).requests = s.requests := rfl

@[simp] theorem State.block_cfg (p : Phase) : (s.block p).cfg = s.cfg := rfl
@[simp] theorem State.block_slots (p : Phase) : (s.block p).slots = s.slots := rfl
@[simp] theorem State.block_hs (p : Phase) : (s.block p).hs = s.hs := rfl
@[simp] theorem State.block_status (p : Phase) : (s.block p).status = s.status := rfl
@[simp] theorem State.block_staging (p : Phase) : (s.block p).staging = s.staging := rfl
@[simp] theorem State.block_phase (p : Phase) : (s.block p).phase = p := rfl
@[simp] theorem State.block_delivered (p : Phase) : (s.block p).delivered = s.delivered := rfl
@[simp] theorem State.block_trace (p : Phase) : (s.block p).trace = s.trace := rfl
@[simp] theorem State.block_rx (p : Phase) : (s.block p).rx = s.rx := rfl
@[simp] theorem State.block_tx (p : Phase) : (s.block p).tx = s.tx := rfl
@[simp] theorem State.block_requests (p : Phase) : (s.block p).requests = s.requests := rfl

@[simp] theorem State.complete_cfg (x : Delivery) : (s.complete x).cfg = s.cfg := rfl
@[simp] theorem State.complete_slots (x : Delivery) : (s.complete x).slots = s.slots := rfl
@[simp] theorem State.complete_hs (x : Delivery) : (s.complete x).hs = s.hs := rfl
@[simp] theorem State.complete_status (x : Delivery) : (s.complete x).status = x.code := rfl
@[simp] theorem State.complete_staging (x : Delivery) : (s.complete x).staging = [] := rfl
@[simp] theorem State.complete_phase (x : Delivery) : (s.complete x).phase = .idle := rfl
@[simp] theorem State.complete_delivered (x : Delivery) : (s.complete x).delivered = s.delivered ++ [x] := rfl
@[simp] theorem State.complete_trace (x : Delivery) : (s.complete x).trace = s.trace := rfl
@[simp] theorem State.complete_rx (x : Delivery) : (s.complete x).rx = s.rx := rfl
@[simp] theorem State.complete_tx (x : Delivery) : (s.complete x).tx = s.tx := rfl
@[simp] theorem State.complete_requests (x : Delivery) : (s.complete x).requests = s.requests := rfl

@[simp] theorem State.supply_cfg (l : List RxItem) (g : List Nat) : (s.supply l g).cfg = s.cfg := rfl
@[simp] theorem State.supply_slots (l : List RxItem) (g : List Nat) : (s.supply l g).slots = s.slots := rfl
@[simp] theorem State.supply_hs (l : List RxItem) (g : List Nat) : (s.supply l g).hs = s.hs := rfl
@[simp] theorem State.supply_status (l : List RxItem) (g : List Nat) : (s.supply l g).status = s.status := rfl
@[simp] theorem State.supply_staging (l : List RxItem) (g : List Nat) : (s.supply l g).staging = s.staging := rfl
@[simp] theorem State.supply_phase (l : List RxItem) (g : List Nat) : (s.supply l g).phase = s.phase := rfl
@[simp] theorem State.supply_delivered (l : List RxItem) (g : List Nat) : (s.supply l g).delivered = s.delivered := rfl
@[simp] theorem State.supply_trace (l : List RxItem) (g : List Nat) : (s.supply l g).trace = s.trace := rfl
@[simp] theorem State.supply_rx (l : List RxItem) (g : List Nat) : (s.supply l g).rx = s.rx ++ l := rfl
@[simp] theorem State.supply_tx (l : List RxItem) (g : List Nat) : (s.supply l g).tx = s.tx ++ g := rfl
@[simp] theorem State.supply_requests (l : List RxItem) (g : List Nat) : (s.supply l g).requests = s.requests := rfl

@[simp] theorem State.loseInbound_cfg (n : Nat) : (s.loseInbound n).cfg = s.cfg := rfl
@[simp] theorem State.loseInbound_slots (n : Nat) : (s.loseInbound n).slots = s.slots := rfl
@[simp] theorem State.loseInbound_hs (n : Nat) : (s.loseInbound n).hs = s.hs := rfl
@[simp] theorem State.loseInbound_status (n : Nat) : (s.loseInbound n).status = s.status := rfl
@[simp] theorem State.loseInbound_staging (n : Nat) : (s.loseInbound n).staging = s.staging := rfl
@[simp] theorem State.loseInbound_phase (n : Nat) : (s.loseInbound n).phase = s.phase := rfl
@[simp] theorem State.loseInbound_delivered (n : Nat) : (s.loseInbound n).delivered = s.delivered := rfl
@[simp] theorem State.loseInbound_trace (n : Nat) : (s.loseInbound n).trace = s.trace := rfl
@[simp] theorem State.loseInbound_rx (n : Nat) : (s.loseInbound n).rx = s.rx.drop n := rfl
@[simp] theorem State.loseInbound_tx (n : Nat) : (s.loseInbound n).tx = s.tx := rfl
@[simp] theorem State.loseInbound_requests (n : Nat) : (s.loseInbound n).requests = s.requests := rfl

@[simp] theorem State.blockReset_cfg : s.blockReset.cfg = s.cfg := rfl
@[simp] theorem State.blockReset_slots : s.blockReset.slots = List.replicate s.cfg.nslot none := rfl
@[simp] theorem State.blockReset_hs : s.blockReset.hs = .idle := rfl
@[simp] theorem State.blockReset_status : s.blockReset.status = 0 := rfl
@[simp] theorem State.blockReset_staging : s.blockReset.staging = [] := rfl
@[simp] theorem State.blockReset_phase : s.blockReset.phase = .idle := rfl
@[simp] theorem State.blockReset_delivered : s.blockReset.delivered = s.delivered := rfl
@[simp] theorem State.blockReset_trace : s.blockReset.trace = s.trace := rfl
@[simp] theorem State.blockReset_rx : s.blockReset.rx = s.rx := rfl
@[simp] theorem State.blockReset_tx : s.blockReset.tx = s.tx := rfl
@[simp] theorem State.blockReset_requests : s.blockReset.requests = s.requests := rfl

@[simp] theorem finish_eq (r : Result) : finish r s = s.complete (.ok r) := rfl
@[simp] theorem raise_eq (k : ErrorKind) : raise k s = s.complete (.error k) := rfl

/-! ### What the outside does between steps keeps the invariant -/

theorem State.Inv.loseInbound {s : State} (h : s.Inv) (n : Nat) : (s.loseInbound n).Inv := ⟨h.cfg, h.memory, h.status, h.phase⟩
theorem State.Inv.supply {s : State} (h : s.Inv) (l : List RxItem) (g : List Nat) : (s.supply l g).Inv :=
  ⟨h.cfg, h.memory, h.status, h.phase⟩
theorem State.Inv.issue {s : State} (h : s.Inv) (r : Request) : (s.issue r).Inv := ⟨h.cfg, h.memory, h.status, h.phase⟩

/-! ### Reading a slot -/

theorem State.slot_def (d : SlotIx) : s.slot d = (s.slots[d.toNat]?).join := rfl
@[simp] theorem State.slot_setHs (h : Handshake) (d : SlotIx) : (s.setHs h).slot d = s.slot d := rfl
@[simp] theorem State.slot_setStaging (l : List Byte) (d : SlotIx) : (s.setStaging l).slot d = s.slot d := rfl
@[simp] theorem State.slot_block (p : Phase) (d : SlotIx) : (s.block p).slot d = s.slot d := rfl
@[simp] theorem State.slot_complete (x : Delivery) (d : SlotIx) : (s.complete x).slot d = s.slot d := rfl
@[simp] theorem State.slot_supply (l : List RxItem) (g : List Nat) (d : SlotIx) : (s.supply l g).slot d = s.slot d := rfl

theorem State.slot_congr {s t : State} (h : t.slots = s.slots) (d : SlotIx) : t.slot d = s.slot d := by
  simp [State.slot, h]

theorem State.slot_setSlot_other (d e : SlotIx) (f : Frame) (h : e ≠ d) : (s.setSlot d f).slot e = s.slot e := by
  have : d.toNat ≠ e.toNat := fun hn => h (BitVec.eq_of_toNat_eq hn.symm)
  simp [State.slot, List.getElem?_set_ne this]

theorem State.slot_setSlot_same (d : SlotIx) (f : Frame) (h : d.toNat < s.slots.length) :
    (s.setSlot d f).slot d = some f := by
  simp [State.slot, List.getElem?_set_self h]

/-- A slot that holds a frame exists in the slot file. -/
theorem State.lt_of_slot {s : State} {d : SlotIx} {f : Frame} (h : s.slot d = some f) : d.toNat < s.slots.length := by
  rcases Nat.lt_or_ge d.toNat s.slots.length with hlt | hge
  · exact hlt
  · simp [State.slot, List.getElem?_eq_none hge] at h

/-- Writing back what a slot holds changes nothing. -/
theorem State.setSlot_self {s : State} {d : SlotIx} {f : Frame} (h : s.slot d = some f) : s.setSlot d f = s := by
  have hlt := State.lt_of_slot h
  have : s.slots[d.toNat] = some f := by simpa [State.slot, List.getElem?_eq_getElem hlt] using h
  simp [State.setSlot, ← this]

theorem State.byte?_congr {s t : State} {d : SlotIx} (h : t.slot d = s.slot d) (n : Nat) : t.byte? d n = s.byte? d n := by
  simp [State.byte?, h]

theorem State.byte?_of_slot {s : State} {d : SlotIx} {f : Frame} (h : s.slot d = some f) (n : Nat) :
    s.byte? d n = f[n]? := by
  simp [State.byte?, h]

end Sys2Proof.Machine
end

