-- ==== Sys2Proof/Laws/Ops.lean ====
section
/-! SUPPORT. One lemma per shared operation that says everything it can do; the operand forms; the transport primitives. -/

namespace Sys2Proof.Machine

variable {s t : State}

/-! ### The transport primitives -/

/-- What a read takes off the stream: the bytes asked for; or bytes too few and a fault; or nothing yet. -/
theorem takeRead_bytes (l : List Byte) (rest : List RxItem) :
    takeRead l.length (l.map RxItem.byte ++ rest) = some (.bytes l, rest) := by
  induction l with
  | nil => rfl
  | cons b l ih => simp [takeRead, ih]

theorem takeRead_fault (k : Nat) (l : List Byte) (rest : List RxItem) (h : l.length < k) :
    takeRead k (l.map RxItem.byte ++ .fault :: rest) = some (.fault, rest) := by
  induction l generalizing k with
  | nil => cases k with
    | zero => simp at h
    | succ k => rfl
  | cons b l ih =>
    cases k with
    | zero => simp at h
    | succ k => simp [takeRead, ih k (by simpa using h)]

theorem takeRead_wait (k : Nat) (l : List Byte) (h : l.length < k) : takeRead k (l.map RxItem.byte) = none := by
  induction l generalizing k with
  | nil => cases k with
    | zero => simp at h
    | succ k => rfl
  | cons b l ih =>
    cases k with
    | zero => simp at h
    | succ k => simp [takeRead, ih k (by simpa using h)]

/-- The answer to a read, said once: `k` bytes that are the next of the stream, or a fault after fewer. -/
theorem takeRead_some {k : Nat} {rx rest : List RxItem} {r : ReadAnswer} (h : takeRead k rx = some (r, rest)) :
    (∃ l : List Byte, r = .bytes l ∧ l.length = k ∧ rx = l.map RxItem.byte ++ rest)
    ∨ (∃ l : List Byte, r = .fault ∧ l.length < k ∧ rx = l.map RxItem.byte ++ .fault :: rest) := by
  induction k generalizing rx rest r with
  | zero => simp [takeRead] at h; exact .inl ⟨[], h.1.symm, rfl, by simp [h.2]⟩
  | succ k ih =>
    match rx, h with
    | .fault :: rx', h => simp [takeRead] at h; exact .inr ⟨[], h.1.symm, by simp, by simp [h.2]⟩
    | .byte b :: rx', h =>
      simp only [takeRead] at h
      split at h
      · rename_i hk; cases h
        rcases ih hk with ⟨l, hl, hn, hx⟩ | ⟨l, hl, -⟩
        · cases hl; exact .inl ⟨b :: _, rfl, by simp [hn], by simp [hx]⟩
        · cases hl
      · rename_i hk; cases h
        rcases ih hk with ⟨l, hl, -⟩ | ⟨l, -, hn, hx⟩
        · cases hl
        · exact .inr ⟨b :: l, rfl, by simp [hn], by simp [hx]⟩
      · cases h

/-- A read that can be answered is answered alike when more comes after it on the stream. -/
theorem takeRead_append {k : Nat} {rx rest : List RxItem} {r : ReadAnswer} (h : takeRead k rx = some (r, rest))
    (l : List RxItem) : takeRead k (rx ++ l) = some (r, rest ++ l) := by
  induction k generalizing rx rest r with
  | zero => simp [takeRead] at h ⊢; exact ⟨h.1, by simp [h.2]⟩
  | succ k ih =>
    match rx, h with
    | .fault :: rx', h => simp [takeRead] at h ⊢; exact ⟨h.1, by simp [h.2]⟩
    | .byte b :: rx', h =>
      simp only [takeRead] at h
      split at h
      · rename_i hk; cases h; simp [takeRead, ih hk]
      · rename_i hk; cases h; simp [takeRead, ih hk]
      · cases h

/-- `RxRead`, said once: what it changes when it is answered. -/
theorem rxRead_some {k : Nat} {r : ReadAnswer} (h : rxRead k s = some (r, t)) :
    ∃ rest, takeRead k s.rx = some (r, rest) ∧ t = { s with rx := rest, trace := s.trace ++ [.read k r] } := by
  unfold rxRead at h
  split at h
  · cases h
  · rename_i r' rest hk; cases h; exact ⟨rest, hk, rfl⟩

theorem rxRead_of_take {k : Nat} {r : ReadAnswer} {rest : List RxItem} (h : takeRead k s.rx = some (r, rest)) :
    rxRead k s = some (r, { s with rx := rest, trace := s.trace ++ [.read k r] }) := by
  simp [rxRead, h]

theorem rxRead_none_iff (k : Nat) : rxRead k s = none ↔ takeRead k s.rx = none := by
  unfold rxRead; split <;> simp [*]

/-- A read of one byte, case by case on the stream. -/
theorem rxRead_one_byte {b : Byte} {rest : List RxItem} (h : s.rx = .byte b :: rest) :
    rxRead 1 s = some (.bytes [b], { s with rx := rest, trace := s.trace ++ [.read 1 (.bytes [b])] }) :=
  rxRead_of_take (by rw [h]; rfl)

theorem rxRead_one_fault {rest : List RxItem} (h : s.rx = .fault :: rest) :
    rxRead 1 s = some (.fault, { s with rx := rest, trace := s.trace ++ [.read 1 .fault] }) :=
  rxRead_of_take (by rw [h]; rfl)

theorem rxRead_silent {k : Nat} (h : s.rx = []) (hk : 0 < k) : rxRead k s = none := by
  rw [rxRead_none_iff, h]
  exact takeRead_wait k [] hk

/-- A read of `k` bytes answers with exactly `k` bytes, if with bytes (R49). -/
theorem rxRead_length {k : Nat} {l : List Byte} (h : rxRead k s = some (.bytes l, t)) : l.length = k := by
  obtain ⟨rest, hk, -⟩ := rxRead_some h
  rcases takeRead_some hk with ⟨l', hl, hn, -⟩ | ⟨l', hl, -⟩
  · cases hl; exact hn
  · cases hl

/-- `TxWrite`, said once: the count is admitted by the contract (R48), and what changes. -/
theorem txWrite_some {b : List Byte} {c : Nat} (h : txWrite b s = some (c, t)) :
    c ≤ b.length ∧ ∃ room rest, s.tx = room :: rest ∧ c = min room b.length
      ∧ t = { s with tx := rest, trace := s.trace ++ [.write b c] } := by
  unfold txWrite at h
  split at h
  · cases h
  · rename_i room rest hx; cases h; exact ⟨Nat.min_le_right _ _, room, rest, hx, rfl, rfl⟩

theorem txWrite_of_room {room : Nat} {rest : List Nat} (b : List Byte) (h : s.tx = room :: rest) :
    txWrite b s = some (min room b.length, { s with tx := rest, trace := s.trace ++ [.write b (min room b.length)] }) := by
  simp [txWrite, h]

theorem txWrite_none_iff (b : List Byte) : txWrite b s = none ↔ s.tx = [] := by
  unfold txWrite; split <;> simp [*]

/-- Every count the contract admits can be answered (R48). -/
theorem txWrite_every_count (s : State) (b : List Byte) (c : Nat) (h : c ≤ b.length) :
    ∃ t, txWrite b { s with tx := [c] } = some (c, t) := by
  exact ⟨{ s with tx := [], trace := s.trace ++ [.write b c] }, by simp [txWrite, Nat.min_eq_left h]⟩

theorem sentBytes_append (a b : List Event) : sentBytes (a ++ b) = sentBytes a ++ sentBytes b := by
  induction a with
  | nil => rfl
  | cons e a ih => cases e <;> simp [sentBytes, ih]

/-! ### Operand forms -/

theorem inCmdset_iff (c : Config) (b : Byte) : inCmdset c b = true ↔ b ∈ c.cmdset := by simp [inCmdset]

theorem withSlot_eq {d : SlotIx} {k : State → State} (h : slotExists s.cfg d = true) : withSlot d k s = k s := by
  simp [withSlot, h]

theorem withSlot_missing {d : SlotIx} {k : State → State} (h : slotExists s.cfg d = false) :
    withSlot d k s = s.complete (.error .illegalOp) := by simp [withSlot, h]

theorem withFrame_eq {q : SlotIx} {f : Frame} {k : Frame → State → State} (h : slotExists s.cfg q = true)
    (hf : s.slot q = some f) : withFrame q k s = k f s := by simp [withFrame, withSlot, h, hf]

theorem withFrame_empty {q : SlotIx} {k : Frame → State → State} (h : slotExists s.cfg q = true)
    (hf : s.slot q = none) : withFrame q k s = s.complete (.error .slotEmpty) := by simp [withFrame, withSlot, h, hf]

theorem withFrame_missing {q : SlotIx} {k : Frame → State → State} (h : slotExists s.cfg q = false) :
    withFrame q k s = s.complete (.error .illegalOp) := withSlot_missing h

theorem withCommand_eq {cmd : Byte} {k : State → State} (h : cmd ∈ s.cfg.cmdset) : withCommand cmd k s = k s := by
  simp [withCommand, (inCmdset_iff _ _).2 h]

theorem withCommand_bad {cmd : Byte} {k : State → State} (h : cmd ∉ s.cfg.cmdset) :
    withCommand cmd k s = s.complete (.error .invalidCommand) := by
  simp [withCommand, mt (inCmdset_iff _ _).1 h]

theorem withParams_eq {p : List Byte} {k : State → State} (h : p.length ≤ s.cfg.maxParams) : withParams p k s = k s := by
  simp [withParams, h]

theorem withParams_long {p : List Byte} {k : State → State} (h : s.cfg.maxParams < p.length) :
    withParams p k s = s.complete (.error .tooManyParameters) := by simp [withParams, Nat.not_le.2 h]

/-- What a source-slot operation can come to. -/
theorem withFrame_cases (q : SlotIx) (k : Frame → State → State) (s : State) :
    (slotExists s.cfg q = false ∧ withFrame q k s = s.complete (.error .illegalOp))
    ∨ (slotExists s.cfg q = true ∧ s.slot q = none ∧ withFrame q k s = s.complete (.error .slotEmpty))
    ∨ (∃ f, slotExists s.cfg q = true ∧ s.slot q = some f ∧ withFrame q k s = k f s) := by
  cases he : slotExists s.cfg q with
  | false => exact .inl ⟨rfl, withFrame_missing he⟩
  | true =>
    cases hf : s.slot q with
    | none => exact .inr (.inl ⟨rfl, rfl, withFrame_empty he hf⟩)
    | some f => exact .inr (.inr ⟨f, rfl, rfl, withFrame_eq he hf⟩)

theorem withSlot_cases (d : SlotIx) (k : State → State) (s : State) :
    (slotExists s.cfg d = false ∧ withSlot d k s = s.complete (.error .illegalOp))
    ∨ (slotExists s.cfg d = true ∧ withSlot d k s = k s) := by
  cases he : slotExists s.cfg d with
  | false => exact .inl ⟨rfl, withSlot_missing he⟩
  | true => exact .inr ⟨rfl, withSlot_eq he⟩

/-! ### The parser -/

/-- When `parse` accepts: it changes no byte, and the sequence is a consistent frame (R120, R126). -/
theorem parse_ok_iff (c : Config) (raw f : Frame) : parse c raw = .ok f ↔
    f = raw ∧ frameOk c raw = true ∧ (c.parseCheckCommand = true → inCmdset c (byteAt raw 1) = true) := by
  unfold parse
  rw [frameOk_iff]
  split
  · simp; omega
  split
  · simp; omega
  split
  · simp_all
  split
  · simp_all
  split
  · rename_i h; simp at h; simp [h]
  · rename_i h; simp at h
    rename_i h1 h2 h3 h4
    simp only [Except.ok.injEq]
    constructor
    · rintro rfl; exact ⟨rfl, ⟨by omega, by omega, by simpa using h3, by simpa using h4⟩, h⟩
    · rintro ⟨rfl, -⟩; rfl

/-- Which error `parse` reports, the tests in order (R125). -/
theorem parse_error_cases {c : Config} {raw : Frame} {k : ErrorKind} (h : parse c raw = .error k) :
    (k = .frameTooLong ∧ c.maxFrame < raw.length) ∨ k = .lengthMismatch ∨ k = .checksumMismatch
    ∨ (k = .invalidCommand ∧ c.parseCheckCommand = true) := by
  unfold parse at h
  split at h
  · cases h; exact .inl ⟨rfl, ‹_›⟩
  split at h
  · cases h; exact .inr (.inl rfl)
  split at h
  · cases h; exact .inr (.inl rfl)
  split at h
  · cases h; exact .inr (.inr (.inl rfl))
  split at h
  · rename_i hc; cases h; simp at hc; exact .inr (.inr (.inr ⟨rfl, hc.1⟩))
  · cases h

/-- What handing bytes to the parser can come to. -/
theorem storeParsed_cases (d : SlotIx) (raw : List Byte) (s : State) :
    (∃ k, parse s.cfg raw = .error k ∧ storeParsed d raw s = s.complete (.error k))
    ∨ (parse s.cfg raw = .ok raw ∧ storeParsed d raw s = (s.setSlot d raw).complete (.ok .none)) := by
  unfold storeParsed
  cases hp : parse s.cfg raw with
  | error k => exact .inl ⟨k, rfl, rfl⟩
  | ok f => obtain ⟨rfl, -⟩ := (parse_ok_iff _ _ _).1 hp; exact .inr ⟨rfl, rfl⟩

/-- What NEW can come to (R90). -/
theorem newFrame_cases (d : SlotIx) (cmd : Byte) (p : List Byte) (s : State) :
    (slotExists s.cfg d = false ∧ newFrame d cmd p s = s.complete (.error .illegalOp))
    ∨ (cmd ∉ s.cfg.cmdset ∧ newFrame d cmd p s = s.complete (.error .invalidCommand))
    ∨ (s.cfg.maxParams < p.length ∧ newFrame d cmd p s = s.complete (.error .tooManyParameters))
    ∨ (slotExists s.cfg d = true ∧ cmd ∈ s.cfg.cmdset ∧ p.length ≤ s.cfg.maxParams
        ∧ newFrame d cmd p s = (s.setSlot d (encodeFrame cmd p)).complete (.ok .none)) := by
  rcases withSlot_cases d (withCommand cmd (withParams p (storeFrame d (encodeFrame cmd p)))) s with h | ⟨h, he⟩
  · exact .inl h
  by_cases hc : cmd ∈ s.cfg.cmdset
  · rcases Nat.lt_or_ge s.cfg.maxParams p.length with hp | hp
    · exact .inr (.inr (.inl ⟨hp, by rw [newFrame, he, withCommand_eq hc, withParams_long hp]⟩))
    · exact .inr (.inr (.inr ⟨h, hc, hp, by rw [newFrame, he, withCommand_eq hc, withParams_eq hp]; rfl⟩))
  · exact .inr (.inl ⟨hc, by rw [newFrame, he, withCommand_bad hc]⟩)

end Sys2Proof.Machine
end

