-- ==== Sys2Proof/Laws/PerInstr.lean ====
section
/-! SUPPORT. Statements made per instruction: one lemma per constructor of `Instr`. -/

namespace Sys2Proof.Laws

/-- The instruction that the words of `i` decode to is its own canonical form, and it exists on a block exactly when `i` does. -/
def CanonicalForm.Statement (i : Instr) : Prop :=
  ∀ c : Config, (i.canonical c).canonical c = i.canonical c ∧ (i.canonical c).wellFormed c = i.wellFormed c

theorem CanonicalForm.new (d : SlotIx) (cmd : Byte) (p : List Byte) : CanonicalForm.Statement (.new d cmd p) := fun _ => ⟨rfl, rfl⟩
theorem CanonicalForm.fromBytes (d : SlotIx) (raw : List Byte) : CanonicalForm.Statement (.fromBytes d raw) := fun _ => ⟨rfl, rfl⟩
theorem CanonicalForm.command (q : SlotIx) : CanonicalForm.Statement (.command q) := fun _ => ⟨rfl, rfl⟩
theorem CanonicalForm.setCommand (q : SlotIx) (cmd : Byte) : CanonicalForm.Statement (.setCommand q cmd) := fun _ => ⟨rfl, rfl⟩
theorem CanonicalForm.parameters (q : SlotIx) : CanonicalForm.Statement (.parameters q) := fun _ => ⟨rfl, rfl⟩
theorem CanonicalForm.setParameters (q : SlotIx) (p : List Byte) : CanonicalForm.Statement (.setParameters q p) := fun _ => ⟨rfl, rfl⟩
theorem CanonicalForm.checksum (q : SlotIx) : CanonicalForm.Statement (.checksum q) := fun _ => ⟨rfl, rfl⟩
theorem CanonicalForm.recomputeChecksum (q : SlotIx) : CanonicalForm.Statement (.recomputeChecksum q) := fun _ => ⟨rfl, rfl⟩
theorem CanonicalForm.toBytes (q : SlotIx) : CanonicalForm.Statement (.toBytes q) := fun _ => ⟨rfl, rfl⟩
theorem CanonicalForm.rts : CanonicalForm.Statement (.rts) := fun _ => ⟨rfl, rfl⟩
theorem CanonicalForm.rtr : CanonicalForm.Statement (.rtr) := fun _ => ⟨rfl, rfl⟩
theorem CanonicalForm.txFrame (q : SlotIx) : CanonicalForm.Statement (.txFrame q) := fun _ => ⟨rfl, rfl⟩
theorem CanonicalForm.rxFrame (d : SlotIx) : CanonicalForm.Statement (.rxFrame d) := fun _ => ⟨rfl, rfl⟩
theorem CanonicalForm.versionRequest (d : SlotIx) : CanonicalForm.Statement (.versionRequest d) := fun _ => ⟨rfl, rfl⟩
theorem CanonicalForm.testRequest (d : SlotIx) : CanonicalForm.Statement (.testRequest d) := fun _ => ⟨rfl, rfl⟩
theorem CanonicalForm.sendFrame (q : SlotIx) : CanonicalForm.Statement (.sendFrame q) := fun _ => ⟨rfl, rfl⟩
theorem CanonicalForm.recvFrame (d : SlotIx) : CanonicalForm.Statement (.recvFrame d) := fun _ => ⟨rfl, rfl⟩
theorem CanonicalForm.connection : CanonicalForm.Statement (.connection) := fun _ => ⟨rfl, rfl⟩
theorem CanonicalForm.selectRf : CanonicalForm.Statement (.selectRf) := fun _ => ⟨rfl, rfl⟩
theorem CanonicalForm.getVersion : CanonicalForm.Statement (.getVersion) := fun _ => ⟨rfl, rfl⟩
theorem CanonicalForm.iso15693Inventory : CanonicalForm.Statement (.iso15693Inventory) := fun _ => ⟨rfl, rfl⟩
theorem CanonicalForm.iso15693Access : CanonicalForm.Statement (.iso15693Access) := fun _ => ⟨rfl, rfl⟩
theorem CanonicalForm.iso14443aAccess : CanonicalForm.Statement (.iso14443aAccess) := fun _ => ⟨rfl, rfl⟩
theorem CanonicalForm.mifareUlAccess : CanonicalForm.Statement (.mifareUlAccess) := fun _ => ⟨rfl, rfl⟩
theorem CanonicalForm.iso14443aInventory : CanonicalForm.Statement (.iso14443aInventory) := fun _ => ⟨rfl, rfl⟩
theorem CanonicalForm.stInventory : CanonicalForm.Statement (.stInventory) := fun _ => ⟨rfl, rfl⟩
theorem CanonicalForm.stAccess : CanonicalForm.Statement (.stAccess) := fun _ => ⟨rfl, rfl⟩
theorem CanonicalForm.iso14443bInventory : CanonicalForm.Statement (.iso14443bInventory) := fun _ => ⟨rfl, rfl⟩
theorem CanonicalForm.iso14443bAccess : CanonicalForm.Statement (.iso14443bAccess) := fun _ => ⟨rfl, rfl⟩
theorem CanonicalForm.felicaInventory : CanonicalForm.Statement (.felicaInventory) := fun _ => ⟨rfl, rfl⟩
theorem CanonicalForm.topazInventory : CanonicalForm.Statement (.topazInventory) := fun _ => ⟨rfl, rfl⟩
theorem CanonicalForm.topazAccess : CanonicalForm.Statement (.topazAccess) := fun _ => ⟨rfl, rfl⟩
theorem CanonicalForm.setTarget : CanonicalForm.Statement (.setTarget) := fun _ => ⟨rfl, rfl⟩
theorem CanonicalForm.setInitiator : CanonicalForm.Statement (.setInitiator) := fun _ => ⟨rfl, rfl⟩
theorem CanonicalForm.syncRts : CanonicalForm.Statement (.syncRts) := fun _ => ⟨rfl, rfl⟩
theorem CanonicalForm.ackRts : CanonicalForm.Statement (.ackRts) := fun _ => ⟨rfl, rfl⟩
theorem CanonicalForm.syncRtr : CanonicalForm.Statement (.syncRtr) := fun _ => ⟨rfl, rfl⟩
theorem CanonicalForm.ackRtr : CanonicalForm.Statement (.ackRtr) := fun _ => ⟨rfl, rfl⟩

end Sys2Proof.Laws
end

