-- ==== Sys2Proof/Laws/Phases.lean ====
section
/-! SUPPORT. What an instruction is made of, said once: `Moves` lists the elementary changes an operation makes, and
`exec_moves` says that every instruction is a sequence of those it is entitled to. Whatever all of them keep, the
instruction keeps. -/

namespace Sys2Proof.Machine

/-- `t` comes from `s` by elementary changes: `hs` written (if `hsOk`), the transport used (if `ioOk`), slot `dst` written, the
staging buffer written, the operation made to wait or ended. -/
inductive Moves (hsOk ioOk : Bool) (dst : Option SlotIx) : State → State → Prop where
  | refl (s : State) : Moves hsOk ioOk dst s s
  | setHs {s t : State} (h : Handshake) : hsOk = true → Moves hsOk ioOk dst s t → Moves hsOk ioOk dst s (t.setHs h)
  | write {s t u : State} {b : List Byte} {c : Nat} : ioOk = true → Moves hsOk ioOk dst s t →
      txWrite b t = some (c, u) → Moves hsOk ioOk dst s u
  | read {s t u : State} {k : Nat} {r : ReadAnswer} : ioOk = true → Moves hsOk ioOk dst s t →
      rxRead k t = some (r, u) → Moves hsOk ioOk dst s u
  | setStaging {s t : State} (l : List Byte) : Moves hsOk ioOk dst s t → Moves hsOk ioOk dst s (t.setStaging l)
  | block {s t : State} (p : Phase) : Moves hsOk ioOk dst s t → Moves hsOk ioOk dst s (t.block p)
  | complete {s t : State} (x : Delivery) : Moves hsOk ioOk dst s t → Moves hsOk ioOk dst s (t.complete x)
  | setSlot {s t : State} (d : SlotIx) (f : Frame) : dst = some d → Moves hsOk ioOk dst s t →
      Moves hsOk ioOk dst s (t.setSlot d f)

variable {h io : Bool} {dst : Option SlotIx} {s t : State}

theorem moves_withSlot {d : SlotIx} {k : State → State} (m : Moves h io dst s t) (hk : Moves h io dst s (k t)) :
    Moves h io dst s (withSlot d k t) := by
  rcases withSlot_cases d k t with ⟨-, e⟩ | ⟨-, e⟩ <;> rw [e]
  · exact m.complete _
  · exact hk

theorem moves_withFrame {q : SlotIx} {k : Frame → State → State} (m : Moves h io dst s t)
    (hk : ∀ f, Moves h io dst s (k f t)) : Moves h io dst s (withFrame q k t) := by
  rcases withFrame_cases q k t with ⟨-, e⟩ | ⟨-, -, e⟩ | ⟨f, -, -, e⟩ <;> rw [e]
  · exact m.complete _
  · exact m.complete _
  · exact hk f

theorem moves_withCommand {cmd : Byte} {k : State → State} (m : Moves h io dst s t) (hk : Moves h io dst s (k t)) :
    Moves h io dst s (withCommand cmd k t) := by
  unfold withCommand; split
  · exact hk
  · exact m.complete _

theorem moves_withParams {p : List Byte} {k : State → State} (m : Moves h io dst s t) (hk : Moves h io dst s (k t)) :
    Moves h io dst s (withParams p k t) := by
  unfold withParams; split
  · exact hk
  · exact m.complete _

theorem moves_storeFrame {d : SlotIx} {f : Frame} (m : Moves h io (some d) s t) :
    Moves h io (some d) s (storeFrame d f t) := (m.setSlot d f rfl).complete _

theorem moves_storeParsed {d : SlotIx} {raw : List Byte} (m : Moves h io (some d) s t) :
    Moves h io (some d) s (storeParsed d raw t) := by
  unfold storeParsed; split
  · exact m.complete _
  · exact moves_storeFrame m

theorem moves_newFrame {d : SlotIx} {cmd : Byte} {p : List Byte} (m : Moves h io (some d) s t) :
    Moves h io (some d) s (newFrame d cmd p t) :=
  moves_withSlot m (moves_withCommand m (moves_withParams m (moves_storeFrame m)))

theorem moves_txFrame {q : SlotIx} (m : Moves h true dst s t) : Moves h true dst s (txFrame q t) := by
  refine moves_withFrame m fun f => ?_
  split
  · exact m.block _
  · rename_i hw
    split <;> exact (m.write rfl hw).complete _

theorem moves_rxRest {d : SlotIx} (m : Moves h true (some d) s t) : Moves h true (some d) s (rxRest d t) := by
  unfold rxRest
  split
  · split
    · exact m.block _
    · rename_i hr; exact (m.read rfl hr).complete _
    · rename_i hr; exact moves_storeParsed ((m.read rfl hr).setStaging _)
  · exact moves_storeParsed m

theorem moves_rxLength {d : SlotIx} (m : Moves h true (some d) s t) : Moves h true (some d) s (rxLength d t) := by
  unfold rxLength
  split
  · exact m.block _
  · rename_i hr; exact (m.read rfl hr).complete _
  · rename_i hr; exact moves_rxRest ((m.read rfl hr).setStaging _)

theorem moves_rxFrame {d : SlotIx} (m : Moves h true (some d) s t) : Moves h true (some d) s (rxFrame d t) :=
  moves_withSlot m (moves_rxLength m)

theorem moves_rtsRead {n : Option SlotIx} (m : Moves true true dst s t) : Moves true true dst s (rtsRead n t) := by
  unfold rtsRead
  split
  · exact m.block _
  · rename_i hr; exact ((m.read rfl hr).setHs _ rfl).complete _
  · rename_i hr
    split
    · split
      · exact ((m.read rfl hr).setHs _ rfl).complete _
      · exact moves_txFrame (((m.read rfl hr).setHs _ rfl).complete _)
    · exact ((m.read rfl hr).setHs _ rfl).complete _

theorem moves_rtsWrite {n : Option SlotIx} (m : Moves true true dst s t) : Moves true true dst s (rtsWrite n t) := by
  unfold rtsWrite
  split
  · exact m.block _
  · rename_i hw; exact moves_rtsRead ((m.write rfl hw).setHs _ rfl)

/-- The slot a continuation writes is the destination. -/
theorem moves_rtrWrite {n : Option SlotIx} (hn : ∀ d, n = some d → dst = some d) (m : Moves true true dst s t) :
    Moves true true dst s (rtrWrite n t) := by
  unfold rtrWrite
  split
  · exact m.block _
  · rename_i hw
    have m' := (m.write rfl hw).setHs .sentSync rfl
    split
    · exact (m'.setHs _ rfl).complete _
    · cases n with
      | none => exact (m'.setHs _ rfl).complete _
      | some d => cases hn d rfl; exact moves_rxFrame ((m'.setHs _ rfl).complete _)

theorem moves_rtrRead {n : Option SlotIx} (hn : ∀ d, n = some d → dst = some d) (m : Moves true true dst s t) :
    Moves true true dst s (rtrRead n t) := by
  unfold rtrRead
  split
  · exact m.block _
  · rename_i hr; exact ((m.read rfl hr).setHs _ rfl).complete _
  · rename_i hr
    split
    · exact moves_rtrWrite hn (m.read rfl hr)
    · exact ((m.read rfl hr).setHs _ rfl).complete _

theorem moves_syncRtsWrite (m : Moves true true dst s t) : Moves true true dst s (syncRtsWrite t) := by
  unfold syncRtsWrite
  split
  · exact m.block _
  · rename_i hw; exact ((m.write rfl hw).setHs _ rfl).block _

theorem moves_syncRtrRead (m : Moves true true dst s t) : Moves true true dst s (syncRtrRead t) := by
  unfold syncRtrRead
  split
  · exact m.block _
  · rename_i hr; exact ((m.read rfl hr).setHs _ rfl).complete _
  · rename_i hr
    split
    · exact (m.read rfl hr).block _
    · exact ((m.read rfl hr).setHs _ rfl).complete _

/-- The slot that an operation in progress writes when it ends with `OK`. -/
def Phase.dest? : Phase → Option SlotIx
  | .rtrRead n | .rtrWrite n => n
  | .rxLength d | .rxRest d => some d
  | _ => none

/-- What a resumed operation is made of. -/
theorem resumePhase_moves (p : Phase) (s : State) : Moves true true p.dest? s (resumePhase p s) := by
  have r {dst} : Moves true true dst s s := .refl s
  cases p with
  | idle => exact r
  | rtsWrite n => exact moves_rtsWrite r
  | rtsRead n => exact moves_rtsRead r
  | rtrRead n => exact moves_rtrRead (fun _ h => h) r
  | rtrWrite n => exact moves_rtrWrite (fun _ h => h) r
  | txWrite q => exact moves_txFrame r
  | rxLength d => exact moves_rxLength r
  | rxRest d => exact moves_rxRest r
  | syncRtsWrite => exact moves_syncRtsWrite r
  | syncRtrRead => exact moves_syncRtrRead r

/-- Every meaning answers a next state, and what it is made of. -/
theorem exec_moves (i : Instr) (s : State) :
    ∃ t, exec i s = .next t ∧ Moves i.usesHandshake i.usesTransport i.dest? s t := by
  have r {h io dst} : Moves h io dst s s := .refl s
  cases i with
  | new d cmd p => exact ⟨_, rfl, moves_newFrame r⟩
  | fromBytes d raw => exact ⟨_, rfl, moves_withSlot r (moves_storeParsed r)⟩
  | command q => exact ⟨_, rfl, moves_withFrame r fun _ => r.complete _⟩
  | setCommand q cmd => exact ⟨_, rfl, moves_withFrame r fun _ => moves_withCommand r (moves_storeFrame r)⟩
  | parameters q => exact ⟨_, rfl, moves_withFrame r fun _ => r.complete _⟩
  | setParameters q p => exact ⟨_, rfl, moves_withFrame r fun _ => moves_withParams r (moves_storeFrame r)⟩
  | checksum q => exact ⟨_, rfl, moves_withFrame r fun _ => r.complete _⟩
  | recomputeChecksum q => exact ⟨_, rfl, moves_withFrame r fun _ => moves_storeFrame r⟩
  | toBytes q => exact ⟨_, rfl, moves_withFrame r fun _ => r.complete _⟩
  | rts => exact ⟨_, rfl, moves_rtsWrite (r.setHs _ rfl)⟩
  | rtr => exact ⟨_, rfl, moves_rtrRead (by simp) (r.setHs _ rfl)⟩
  | txFrame q => exact ⟨_, rfl, moves_txFrame r⟩
  | rxFrame d => exact ⟨_, rfl, moves_rxFrame r⟩
  | versionRequest d => exact ⟨_, rfl, moves_newFrame r⟩
  | testRequest d => exact ⟨_, rfl, moves_newFrame r⟩
  | sendFrame q => exact ⟨_, rfl, moves_withFrame r fun _ => moves_rtsWrite (r.setHs _ rfl)⟩
  | recvFrame d => exact ⟨_, rfl, moves_withSlot r (moves_rtrRead (fun _ h => h) (r.setHs _ rfl))⟩
  | connection => exact ⟨_, rfl, moves_withCommand r r⟩
  | selectRf => exact ⟨_, rfl, moves_withCommand r r⟩
  | getVersion => exact ⟨_, rfl, moves_withCommand r r⟩
  | iso15693Inventory => exact ⟨_, rfl, moves_withCommand r r⟩
  | iso15693Access => exact ⟨_, rfl, moves_withCommand r r⟩
  | iso14443aAccess => exact ⟨_, rfl, moves_withCommand r r⟩
  | mifareUlAccess => exact ⟨_, rfl, moves_withCommand r r⟩
  | iso14443aInventory => exact ⟨_, rfl, moves_withCommand r r⟩
  | stInventory => exact ⟨_, rfl, moves_withCommand r r⟩
  | stAccess => exact ⟨_, rfl, moves_withCommand r r⟩
  | iso14443bInventory => exact ⟨_, rfl, moves_withCommand r r⟩
  | iso14443bAccess => exact ⟨_, rfl, moves_withCommand r r⟩
  | felicaInventory => exact ⟨_, rfl, moves_withCommand r r⟩
  | topazInventory => exact ⟨_, rfl, moves_withCommand r r⟩
  | topazAccess => exact ⟨_, rfl, moves_withCommand r r⟩
  | setTarget => exact ⟨_, rfl, moves_withCommand r r⟩
  | setInitiator => exact ⟨_, rfl, moves_withCommand r r⟩
  | syncRts => exact ⟨_, rfl, moves_syncRtsWrite (r.setHs _ rfl)⟩
  | ackRts => exact ⟨_, rfl, moves_rtsRead (r.setHs _ rfl)⟩
  | syncRtr => exact ⟨_, rfl, moves_syncRtrRead (r.setHs _ rfl)⟩
  | ackRtr => exact ⟨_, rfl, moves_rtrWrite (by simp) (r.setHs _ rfl)⟩

/-- What a step can do, said once. -/
theorem step_cases (s : State) :
    (s.phase = .idle ∧ s.requests = [] ∧ step s = .next s)
    ∨ (s.phase ≠ .idle ∧ step s = .next (resumePhase s.phase s))
    ∨ (∃ r rest i, s.phase = .idle ∧ s.requests = r :: rest ∧ decode s.cfg r = .ok i
        ∧ step s = exec i { s with requests := rest })
    ∨ (∃ r rest e, s.phase = .idle ∧ s.requests = r :: rest ∧ decode s.cfg r = .error e
        ∧ step s = rejectRequest e { s with requests := rest }) := by
  by_cases hp : s.phase = .idle
  · cases hr : s.requests with
    | nil => exact .inl ⟨hp, rfl, by simp [step, fetch, hp, hr]⟩
    | cons r rest =>
      cases hd : decode s.cfg r with
      | ok i => exact .inr (.inr (.inl ⟨r, rest, i, hp, rfl, hd, by simp [step, fetch, hp, hr, hd]⟩))
      | error e => exact .inr (.inr (.inr ⟨r, rest, e, hp, rfl, hd, by simp [step, fetch, hp, hr, hd]⟩))
  · refine .inr (.inl ⟨hp, ?_⟩)
    have : fetch s = .resume s.phase := by unfold fetch; split <;> simp_all
    simp [step, this]

/-! ### Each phase function, one equation for each answer of the transport -/

section Equations

variable {s t : State}

theorem txFrame_wait {q : SlotIx} {f : Frame} (hq : slotExists s.cfg q = true) (hf : s.slot q = some f)
    (h : txWrite f s = none) : txFrame q s = s.block (.txWrite q) := by
  simp [txFrame, withFrame_eq hq hf, h]

theorem txFrame_whole {q : SlotIx} {f : Frame} {c : Nat} (hq : slotExists s.cfg q = true) (hf : s.slot q = some f)
    (h : txWrite f s = some (c, t)) (hc : ¬ c < f.length) : txFrame q s = t.complete (.ok .none) := by
  simp [txFrame, withFrame_eq hq hf, h, hc]

theorem txFrame_short {q : SlotIx} {f : Frame} {c : Nat} (hq : slotExists s.cfg q = true) (hf : s.slot q = some f)
    (h : txWrite f s = some (c, t)) (hc : c < f.length) : txFrame q s = t.complete (.error .transportShortWrite) := by
  simp [txFrame, withFrame_eq hq hf, h, hc]

theorem rxLength_wait {d : SlotIx} (h : rxRead 1 s = none) : rxLength d s = s.block (.rxLength d) := by
  simp [rxLength, h]

theorem rxLength_fault {d : SlotIx} (h : rxRead 1 s = some (.fault, t)) :
    rxLength d s = t.complete (.error .transportFault) := by
  simp [rxLength, h]

theorem rxLength_bytes {d : SlotIx} {r : List Byte} (h : rxRead 1 s = some (.bytes r, t)) :
    rxLength d s = rxRest d (t.setStaging r) := by
  simp [rxLength, h]

theorem rxRest_none {d : SlotIx} (hl : ¬ 2 ≤ (byteAt s.staging 0).toNat) : rxRest d s = storeParsed d s.staging s := by
  simp [rxRest, hl]

theorem rxRest_wait {d : SlotIx} (hl : 2 ≤ (byteAt s.staging 0).toNat)
    (h : rxRead ((byteAt s.staging 0).toNat - 1) s = none) : rxRest d s = s.block (.rxRest d) := by
  simp [rxRest, hl, h]

theorem rxRest_fault {d : SlotIx} (hl : 2 ≤ (byteAt s.staging 0).toNat)
    (h : rxRead ((byteAt s.staging 0).toNat - 1) s = some (.fault, t)) :
    rxRest d s = t.complete (.error .transportFault) := by
  simp [rxRest, hl, h]

theorem rxRest_bytes {d : SlotIx} {r : List Byte} (hl : 2 ≤ (byteAt s.staging 0).toNat)
    (h : rxRead ((byteAt s.staging 0).toNat - 1) s = some (.bytes r, t)) :
    rxRest d s = storeParsed d (t.staging ++ r) (t.setStaging (t.staging ++ r)) := by
  simp [rxRest, hl, h]

theorem rtsRead_wait {n : Option SlotIx} (h : rxRead 1 s = none) : rtsRead n s = s.block (.rtsRead n) := by
  simp [rtsRead, h]

theorem rtsRead_fault {n : Option SlotIx} (h : rxRead 1 s = some (.fault, t)) :
    rtsRead n s = (t.setHs .failed).complete (.error .transportFault) := by
  simp [rtsRead, h]

theorem rtsRead_desync {n : Option SlotIx} {r : List Byte} (h : rxRead 1 s = some (.bytes r, t))
    (hr : r ≠ [t.cfg.ackRts]) : rtsRead n s = (t.setHs .failed).complete (.error .handshakeDesync) := by
  simp [rtsRead, h, hr]

/-- RTS confirms, and SEND_FRAME goes on from there. -/
theorem rtsRead_ack {n : Option SlotIx} {r : List Byte} (h : rxRead 1 s = some (.bytes r, t)) (hr : r = [t.cfg.ackRts]) :
    rtsRead n s = (match n with
      | none => (t.setHs .confirmed).complete (.ok .none)
      | some q => txFrame q ((t.setHs .confirmed).complete (.ok .none))) := by
  cases n <;> simp [rtsRead, h, hr]

theorem rtsWrite_wait {n : Option SlotIx} (h : txWrite [s.cfg.syncRts] s = none) :
    rtsWrite n s = s.block (.rtsWrite n) := by
  simp [rtsWrite, h]

theorem rtsWrite_answered {n : Option SlotIx} {c : Nat} (h : txWrite [s.cfg.syncRts] s = some (c, t)) :
    rtsWrite n s = rtsRead n (t.setHs .sentSync) := by
  simp [rtsWrite, h]

theorem rtrRead_wait {n : Option SlotIx} (h : rxRead 1 s = none) : rtrRead n s = s.block (.rtrRead n) := by
  simp [rtrRead, h]

theorem rtrRead_fault {n : Option SlotIx} (h : rxRead 1 s = some (.fault, t)) :
    rtrRead n s = (t.setHs .failed).complete (.error .transportFault) := by
  simp [rtrRead, h]

theorem rtrRead_desync {n : Option SlotIx} {r : List Byte} (h : rxRead 1 s = some (.bytes r, t))
    (hr : r ≠ [t.cfg.syncRtr]) : rtrRead n s = (t.setHs .failed).complete (.error .handshakeDesync) := by
  simp [rtrRead, h, hr]

theorem rtrRead_sync {n : Option SlotIx} {r : List Byte} (h : rxRead 1 s = some (.bytes r, t)) (hr : r = [t.cfg.syncRtr]) :
    rtrRead n s = rtrWrite n t := by
  simp [rtrRead, h, hr]

theorem rtrWrite_wait {n : Option SlotIx} (h : txWrite [s.cfg.ackRtr] s = none) :
    rtrWrite n s = s.block (.rtrWrite n) := by
  simp [rtrWrite, h]

theorem rtrWrite_short {n : Option SlotIx} {c : Nat} (h : txWrite [s.cfg.ackRtr] s = some (c, t)) (hc : c < 1) :
    rtrWrite n s = (t.setHs .failed).complete (.error .transportShortWrite) := by
  simp only [rtrWrite, h, hc, if_true]; rfl

/-- RTR confirms, and RECV_FRAME goes on from there. -/
theorem rtrWrite_taken {n : Option SlotIx} {c : Nat} (h : txWrite [s.cfg.ackRtr] s = some (c, t)) (hc : ¬ c < 1) :
    rtrWrite n s = (match n with
      | none => (t.setHs .confirmed).complete (.ok .none)
      | some d => rxFrame d ((t.setHs .confirmed).complete (.ok .none))) := by
  cases n <;> (simp only [rtrWrite, h, hc, if_false]; rfl)

end Equations

end Sys2Proof.Machine
end

