-- ==== Sys2Proof/Tests/Slice0.lean ====
section
/-! SUPPORT. Smoke tests and witnesses. Expected results are the spec's: the encodings of opcode_table.json and of 30_encoding.md,
and the vectors of 95_test_vectors.md, whose numbers (E1, M1, H1, Q1 ...) are named. Each `witness_` theorem shows concrete values
that meet all the hypotheses of the obligation it names. -/

namespace Sys2Proof.Tests

open Machine

/-! ### Small states -/

/-- The state an outcome leaves, or the state after reset where it leaves none. -/
def left : Host.Outcome State Fault Refusal → State
  | .next t => t
  | _ => State.reset

/-- The frame of E1, `version_request()`. -/
def frameVersion : Frame := [0x04, 0x03, 0x07, 0x00]

/-- The frame of E2, `test_request()`. -/
def frameTest : Frame := [0x06, 0x01, 0x05, 0x0A, 0x16, 0x00]

/-- The frame of M1. -/
def frameM1 : Frame := [0x07, 0x02, 0x01, 0x02, 0x03, 0x0F, 0x00]

/-- The frame of M4: parsed, its command outside the set. -/
def frameOutside : Frame := [0x04, 0xFF, 0x03, 0x01]

/-- The state after reset with `f` in slot 0, and in slot 1 nothing. -/
def holding (f : Frame) : State := { State.reset with slots := [some f, none] }

/-- The state after reset with a transport that will answer so. -/
def wired (rx : List RxItem) (tx : List Nat) : State := { State.reset with rx := rx, tx := tx }

/-- Both. -/
def holdingWired (f : Frame) (rx : List RxItem) (tx : List Nat) : State := { holding f with rx := rx, tx := tx }

/-- Bytes on the inbound stream. -/
def bytes (l : List Byte) : List RxItem := l.map RxItem.byte

/-- The outcomes, the code in `STATUS` and the trace that a run of `i` from `s` leaves. -/
def report (i : Instr) (s : State) : List Delivery × Nat × List Event :=
  ((left (exec i s)).delivered, (left (exec i s)).status.toNat, (left (exec i s)).trace)

/-- What slot 0 holds after a run of `i` from `s`, and the code in `STATUS`. -/
def slot0 (i : Instr) (s : State) : Option Frame × Nat :=
  ((left (exec i s)).slot 0, (left (exec i s)).status.toNat)

theorem default_wf : Config.default.Wf :=
  ⟨by decide, by decide, by decide, by decide, by decide, by decide, by decide, by decide⟩

/-! ### WellFormed: an ill-formed term for its one check, in every format that has a slot (R73, Q6), and well-formed ones -/

theorem test_wellFormed_refuses_missing_slot : ([.new 2 0x03 [], .fromBytes 2 [], .command 2, .setCommand 2 0x09, .parameters 2, .setParameters 2 [], .checksum 2, .recomputeChecksum 2,
    .toBytes 2, .txFrame 2, .rxFrame 2, .versionRequest 2, .testRequest 2, .sendFrame 2, .recvFrame 15] : List Instr).all
    (fun i => !i.wellFormed Config.default) = true := by decide

theorem test_wellFormed_accepts : ([.new 1 0xFF [0x00], .fromBytes 1 [], .command 0, .txFrame 1, .recvFrame 1, .rts, .rtr,
    .connection, .topazAccess, .syncRts, .ackRtr] : List Instr).all (fun i => i.wellFormed Config.default) = true := by decide

/-- With `NSLOT` 16 the last slot of the 4-bit field exists (R20, R73). -/
theorem test_wellFormed_sixteen_slots :
    (Instr.command 15).wellFormed { Config.default with nslot := 16 } = true := by decide

/-! ### Decode: a word for every constructor, written out from its row of opcode_table.json -/

theorem test_decode_new : decode Config.default (.header 0b0000000100000010#16 [0x01]) = .ok (.new 1 0x02 [0x01]) := by decide

theorem test_decode_fromBytes : decode Config.default (.header 0b0001000110101011#16 [0x04, 0x03]) = .ok (.fromBytes 1 [0x04, 0x03]) := by decide

theorem test_decode_command : decode Config.default (.header 0b0010000110101011#16 []) = .ok (.command 1) := by decide

theorem test_decode_setCommand : decode Config.default (.header 0b0011000100001001#16 []) = .ok (.setCommand 1 0x09) := by decide

theorem test_decode_parameters : decode Config.default (.header 0b0100000111111111#16 []) = .ok (.parameters 1) := by decide

theorem test_decode_setParameters : decode Config.default (.header 0b0101000100000000#16 [0x01, 0x02]) = .ok (.setParameters 1 [0x01, 0x02]) := by decide

theorem test_decode_checksum : decode Config.default (.header 0b0110000100000000#16 []) = .ok (.checksum 1) := by decide

theorem test_decode_recomputeChecksum : decode Config.default (.header 0b0111000000000000#16 []) = .ok (.recomputeChecksum 0) := by decide

theorem test_decode_toBytes : decode Config.default (.header 0b1000000100000000#16 []) = .ok (.toBytes 1) := by decide

theorem test_decode_rts : decode Config.default (.header 0b1001111111111111#16 []) = .ok (.rts) := by decide

theorem test_decode_rtr : decode Config.default (.header 0b1010000000000000#16 []) = .ok (.rtr) := by decide

theorem test_decode_txFrame : decode Config.default (.header 0b1011000100000000#16 []) = .ok (.txFrame 1) := by decide

theorem test_decode_rxFrame : decode Config.default (.header 0b1100000100000000#16 []) = .ok (.rxFrame 1) := by decide

/-- The builders' rows: their words are those of the NEW they abbreviate (R74, Q1). -/
theorem test_decode_versionRequest : encode Config.default (.versionRequest 1) = .header 0b0000000100000011#16 []
    ∧ decode Config.default (.header 0b0000000100000011#16 []) = .ok (.new 1 0x03 []) := by decide

theorem test_decode_testRequest : encode Config.default (.testRequest 1) = .header 0b0000000100000001#16 [0x05, 0x0A]
    ∧ decode Config.default (.header 0b0000000100000001#16 [0x05, 0x0A]) = .ok (.new 1 0x01 [0x05, 0x0A]) := by decide

theorem test_decode_sendFrame : decode Config.default (.joined 0b1001101010101010#16 0b1011000111111111#16)
    = .ok (.sendFrame 1) := by decide

theorem test_decode_recvFrame : decode Config.default (.joined 0b1010000000000000#16 0b1100000100000000#16)
    = .ok (.recvFrame 1) := by decide

theorem test_decode_connection : decode Config.default (.wire 0b00000001#8) = .ok .connection := by decide

theorem test_decode_selectRf : decode Config.default (.wire 0b00000010#8) = .ok .selectRf := by decide

theorem test_decode_getVersion : decode Config.default (.wire 0b00000011#8) = .ok .getVersion := by decide

theorem test_decode_iso15693Inventory : decode Config.default (.wire 0b00000110#8) = .ok .iso15693Inventory := by decide

theorem test_decode_iso15693Access : decode Config.default (.wire 0b00000111#8) = .ok .iso15693Access := by decide

theorem test_decode_iso14443aAccess : decode Config.default (.wire 0b00001000#8) = .ok .iso14443aAccess := by decide

theorem test_decode_iso14443aInventory : decode Config.default (.wire 0b00001001#8) = .ok .iso14443aInventory := by decide

theorem test_decode_stInventory : decode Config.default (.wire 0b00001010#8) = .ok .stInventory := by decide

theorem test_decode_stAccess : decode Config.default (.wire 0b00001011#8) = .ok .stAccess := by decide

theorem test_decode_iso14443bInventory : decode Config.default (.wire 0b00001100#8) = .ok .iso14443bInventory := by decide

theorem test_decode_iso14443bAccess : decode Config.default (.wire 0b00001101#8) = .ok .iso14443bAccess := by decide

theorem test_decode_felicaInventory : decode Config.default (.wire 0b00001110#8) = .ok .felicaInventory := by decide

theorem test_decode_topazInventory : decode Config.default (.wire 0b00001111#8) = .ok .topazInventory := by decide

theorem test_decode_setTarget : decode Config.default (.wire 0b00100000#8) = .ok .setTarget := by decide

theorem test_decode_setInitiator : decode Config.default (.wire 0b00100001#8) = .ok .setInitiator := by decide

theorem test_decode_syncRts : decode Config.default (.wire 0b01010101#8) = .ok .syncRts := by decide

theorem test_decode_ackRts : decode Config.default (.wire 0b10101010#8) = .ok .ackRts := by decide

theorem test_decode_syncRtr : decode Config.default (.wire 0b10100101#8) = .ok .syncRtr := by decide

theorem test_decode_ackRtr : decode Config.default (.wire 0b01011010#8) = .ok .ackRtr := by decide

/-- The second names of 0x08 and 0x0F have the same bits as the first, which is what they decode to (R67). -/
theorem test_decode_mifareUlAccess : encode Config.default .mifareUlAccess = .wire 0b00001000#8
    ∧ decode Config.default (.wire 0b00001000#8) = .ok (Instr.mifareUlAccess.canonical Config.default) := by decide

theorem test_decode_topazAccess : encode Config.default .topazAccess = .wire 0b00001111#8
    ∧ decode Config.default (.wire 0b00001111#8) = .ok (Instr.topazAccess.canonical Config.default) := by decide

/-- Q5, Q6, R77: what selects nothing, each rejected by name. -/
theorem test_decode_rejects : decode Config.default (.header 0xD000 []) = .error (.unusedCode 0xD)
    ∧ decode Config.default (.header 0xE000 []) = .error (.unusedCode 0xE)
    ∧ decode Config.default (.header 0xF000 []) = .error (.unusedCode 0xF)
    ∧ decode Config.default (.header 0x2200 []) = .error (.slotOutOfRange 2)
    ∧ decode Config.default (.joined 0x9000 0xC000) = .error (.notAPair 0x9000 0xC000)
    ∧ decode Config.default (.wire 0x04) = .error (.strayByte 0x04) := by decide

/-- R6: the sentinels and the commands of the builders are parameters, in the wire rows as in the operations. -/
theorem test_decode_wire_parameters :
    decode { Config.default with syncRts := 0x33 } (.wire 0x33) = .ok .syncRts
    ∧ decode { Config.default with syncRts := 0x33 } (.wire 0x55) = .error (.strayByte 0x55)
    ∧ encode { Config.default with ackRtr := 0x34 } .ackRtr = .wire 0x34
    ∧ decode { Config.default with getVersion := 0x40 } (.wire 0x40) = .ok .getVersion
    ∧ encode { Config.default with connection := 0x41 } .connection = .wire 0x41 := by decide

/-- The table's 16, 32 and 8 bit rows through the numbering the table gives them. -/
theorem test_decodeTableWord : decodeTableWord 16 0x3109 = some (.setCommand 1 0x09)
    ∧ decodeTableWord 32 0x9000B100 = some (.sendFrame 1) ∧ decodeTableWord 32 0xA000C000 = some (.recvFrame 0)
    ∧ decodeTableWord 8 0x55 = some .syncRts ∧ decodeTableWord 16 0xD000 = none ∧ decodeTableWord 24 0 = none := by decide

/-- A word placed at reset is the request of the very next step. -/
theorem test_withFetchWord : (left (step (State.reset.withFetchWord 16 0x0003))).slot 0 = some frameVersion
    ∧ (left (step (State.reset.withFetchWord 32 0x9000B000))).status = 9
    ∧ (left (step (State.reset.withFetchWord 8 0x55))).phase = .syncRtsWrite
    ∧ (left (step (State.reset.withFetchWord 16 0xD000))).status = 10 := by decide

/-! ### The vectors of 95_test_vectors.md, one step each -/

/-- E1 to E10: the encoded bytes. -/
theorem test_encodeFrame : encodeFrame 0x03 [] = [0x04, 0x03, 0x07, 0x00]
    ∧ encodeFrame 0x01 [0x05, 0x0A] = [0x06, 0x01, 0x05, 0x0A, 0x16, 0x00] ∧ encodeFrame 0x21 [] = [0x04, 0x21, 0x25, 0x00]
    ∧ encodeFrame 0x07 [0xFF, 0xFF] = [0x06, 0x07, 0xFF, 0xFF, 0x0B, 0x02]
    ∧ encodeFrame 0x06 [0x80, 0x80] = [0x06, 0x06, 0x80, 0x80, 0x0C, 0x01]
    ∧ encodeFrame 0x03 [0xF6] = [0x05, 0x03, 0xF6, 0xFE, 0x00] := by decide

set_option maxRecDepth 8192 in
/-- E12: the greatest checksum of an encoder-built frame, by R99's sum. -/
theorem test_encodeFrame_greatest :
    storedChecksum (encodeFrame 0x21 (List.replicate 251 0xFF)) = 0xFB25 := by decide

/-- E3, E15. -/
theorem test_new : slot0 (.new 0 0x02 [0x01]) State.reset = (some [0x05, 0x02, 0x01, 0x08, 0x00], 0)
    ∧ slot0 (.new 0 0x00 []) (holding frameTest) = (some frameTest, 1) := by decide

set_option maxRecDepth 8192 in
/-- E23, E24. -/
theorem test_new_long : slot0 (.new 0 0x03 (List.replicate 252 0)) (holding frameTest) = (some frameTest, 2)
    ∧ slot0 (.new 0 0x04 (List.replicate 252 0)) (holding frameTest) = (some frameTest, 1) := by decide

/-- S8, S9. -/
theorem test_builders : slot0 (.versionRequest 0) State.reset = (some [0x04, 0x03, 0x07, 0x00], 0)
    ∧ slot0 (.testRequest 0) State.reset = (some [0x06, 0x01, 0x05, 0x0A, 0x16, 0x00], 0) := by decide

/-- M1, M2, M4, M5. -/
theorem test_setCommand : slot0 (.setCommand 0 0x09) (holding frameM1) = (some [0x07, 0x09, 0x01, 0x02, 0x03, 0x16, 0x00], 0)
    ∧ slot0 (.setCommand 0 0x04) (holding frameM1) = (some frameM1, 1)
    ∧ slot0 (.setCommand 0 0x01) (holding frameOutside) = (some [0x04, 0x01, 0x05, 0x00], 0)
    ∧ slot0 (.setCommand 0 0x03) State.reset = (none, 9) := by decide

/-- M6, M7, M10. -/
theorem test_setParameters :
    slot0 (.setParameters 0 [0x01, 0x02, 0x03]) (holding [0x05, 0x02, 0x01, 0x08, 0x00]) = (some frameM1, 0)
    ∧ slot0 (.setParameters 0 []) (holding [0x07, 0x09, 0x01, 0x02, 0x03, 0x16, 0x00]) = (some [0x04, 0x09, 0x0D, 0x00], 0)
    ∧ slot0 (.setParameters 0 [0x01]) (holding frameOutside) = (some [0x05, 0xFF, 0x01, 0x05, 0x01], 0) := by decide

set_option maxRecDepth 8192 in
/-- M8. -/
theorem test_setParameters_long :
    slot0 (.setParameters 0 (List.replicate 252 0)) (holding frameM1) = (some frameM1, 2) := by decide

/-- M11, M12. -/
theorem test_recomputeChecksum : slot0 (.recomputeChecksum 0) (holding [0x06, 0x07, 0xFF, 0xFF, 0x0B, 0x02])
      = (some [0x06, 0x07, 0xFF, 0xFF, 0x0B, 0x02], 0)
    ∧ slot0 (.recomputeChecksum 0) State.reset = (none, 9) := by decide

/-- A1, A9, A11. -/
theorem test_command : report (.command 0) (holding frameVersion) = ([.ok (.byte 0x03)], 0, [])
    ∧ report (.command 0) (holding frameOutside) = ([.ok (.byte 0xFF)], 0, [])
    ∧ report (.command 0) State.reset = ([.error .slotEmpty], 9, []) := by decide

/-- A2, A5. -/
theorem test_parameters : report (.parameters 0) (holding frameVersion) = ([.ok (.bytes [])], 0, [])
    ∧ report (.parameters 0) (holding frameTest) = ([.ok (.bytes [0x05, 0x0A])], 0, []) := by decide

/-- A3, A6. -/
theorem test_checksum : report (.checksum 0) (holding frameVersion) = ([.ok (.half 0x0007)], 0, [])
    ∧ report (.checksum 0) (holding [0x06, 0x07, 0xFF, 0xFF, 0x0B, 0x02]) = ([.ok (.half 0x020B)], 0, []) := by decide

/-- A4. -/
theorem test_toBytes : report (.toBytes 0) (holding frameVersion) = ([.ok (.bytes [0x04, 0x03, 0x07, 0x00])], 0, []) := by
  decide

/-- V1, V4 to V9, V13, V15, V18, V22: the code in `STATUS`. -/
theorem test_fromBytes : ([frameVersion, [], [0x00], [0x01], [0x02, 0x00], [0x03, 0x03, 0x00], [0x05, 0x03, 0x07, 0x00],
      [0x04, 0x03, 0x08, 0x00], [0x04, 0x03, 0x04, 0x00], [0x06, 0x01, 0x0A, 0x05, 0x16, 0x00], [0x04, 0x04, 0x08, 0x00]].map
      fun raw => (slot0 (.fromBytes 0 raw) State.reset).2) = [0, 4, 4, 4, 4, 4, 4, 5, 5, 0, 0] := by decide

set_option maxRecDepth 8192 in
/-- V20, V23 and V24 with the switch on. -/
theorem test_fromBytes_switch : (slot0 (.fromBytes 0 (0xFF :: List.replicate 255 0)) State.reset).2 = 3
    ∧ ([[0x04, 0xFF, 0x03, 0x01], [0x04, 0x04, 0x09, 0x00]].map fun raw => (slot0 (.fromBytes 0 raw)
      { State.reset with cfg := { Config.default with parseCheckCommand := true } }).2) = [1, 5] := by decide

/-- H1, H2, H6, H7. -/
theorem test_rts : report .rts (wired (bytes [0xAA]) [1])
      = ([.ok .none], 0, [.write [0x55] 1, .read 1 (.bytes [0xAA])])
    ∧ report .rts (wired (bytes [0x00]) [1])
      = ([.error .handshakeDesync], 6, [.write [0x55] 1, .read 1 (.bytes [0x00])])
    ∧ report .rts (wired (bytes [0xAA]) [0]) = ([.ok .none], 0, [.write [0x55] 0, .read 1 (.bytes [0xAA])])
    ∧ report .rts (wired [.fault] [1]) = ([.error .transportFault], 8, [.write [0x55] 1, .read 1 .fault]) := by decide

/-- H8: stuck in `SentSync`, no outcome. -/
theorem test_rts_waits : report .rts (wired [] [1]) = ([], 0, [.write [0x55] 1])
    ∧ (left (exec .rts (wired [] [1]))).hs = .sentSync
    ∧ step (left (exec .rts (wired [] [1]))) = .next (left (exec .rts (wired [] [1]))) := ⟨rfl, rfl, rfl⟩

/-- H9, H10, H13, H14. -/
theorem test_rtr : report .rtr (wired (bytes [0xA5]) [1])
      = ([.ok .none], 0, [.read 1 (.bytes [0xA5]), .write [0x5A] 1])
    ∧ report .rtr (wired (bytes [0xAA]) [1]) = ([.error .handshakeDesync], 6, [.read 1 (.bytes [0xAA])])
    ∧ report .rtr (wired (bytes [0xA5]) [0])
      = ([.error .transportShortWrite], 7, [.read 1 (.bytes [0xA5]), .write [0x5A] 0])
    ∧ report .rtr (wired [.fault] []) = ([.error .transportFault], 8, [.read 1 .fault]) := by decide

/-- H15: stuck in `Idle`, before any event. -/
theorem test_rtr_waits : report .rtr (wired [] []) = ([], 0, []) ∧ (left (exec .rtr (wired [] []))).hs = .idle := by decide

/-- T1, T2, T3. -/
theorem test_txFrame : report (.txFrame 0) (holdingWired frameVersion [] [4]) = ([.ok .none], 0, [.write frameVersion 4])
    ∧ report (.txFrame 0) (holdingWired frameTest [] [3]) = ([.error .transportShortWrite], 7, [.write frameTest 3])
    ∧ report (.txFrame 0) (wired [] [4]) = ([.error .slotEmpty], 9, []) := by decide

/-- T4, T6. -/
theorem test_rxFrame : report (.rxFrame 0) (wired (bytes frameTest) [])
      = ([.ok .none], 0, [.read 1 (.bytes [0x06]), .read 5 (.bytes [0x01, 0x05, 0x0A, 0x16, 0x00])])
    ∧ slot0 (.rxFrame 0) (wired (bytes frameTest) []) = (some frameTest, 0)
    ∧ slot0 (.rxFrame 0) (holdingWired frameTest (bytes [0x04, 0x03, 0x04, 0x00]) []) = (some frameTest, 5) := by decide

/-- T7, T9, T10, T11: what is left unread, and a fault on the second read. -/
theorem test_rxFrame_corners :
    (left (exec (.rxFrame 0) (wired (bytes [0x00, 0x09, 0x09, 0x09]) []))).rx = bytes [0x09, 0x09, 0x09]
    ∧ report (.rxFrame 0) (wired (bytes [0x02, 0x09, 0x09, 0x09]) [])
      = ([.error .lengthMismatch], 4, [.read 1 (.bytes [0x02]), .read 1 (.bytes [0x09])])
    ∧ (left (exec (.rxFrame 0) (wired (bytes [0x03, 0x09, 0x09, 0x09]) []))).rx = bytes [0x09]
    ∧ report (.rxFrame 0) (wired [.byte 0x06, .fault] [])
      = ([.error .transportFault], 8, [.read 1 (.bytes [0x06]), .read 5 .fault]) := by decide

/-- T14, T15, T16. -/
theorem test_sendFrame : report (.sendFrame 0) (holdingWired frameVersion (bytes [0xAA]) [1, 4])
      = ([.ok .none, .ok .none], 0, [.write [0x55] 1, .read 1 (.bytes [0xAA]), .write frameVersion 4])
    ∧ report (.sendFrame 0) (holdingWired frameVersion (bytes [0x00]) [1, 4])
      = ([.error .handshakeDesync], 6, [.write [0x55] 1, .read 1 (.bytes [0x00])])
    ∧ report (.sendFrame 0) (wired (bytes [0xAA]) [1, 4]) = ([.error .slotEmpty], 9, []) := by decide

/-- T17, T18, T19. -/
theorem test_recvFrame : report (.recvFrame 0) (wired (bytes (0xA5 :: frameVersion)) [1])
      = ([.ok .none, .ok .none], 0, [.read 1 (.bytes [0xA5]), .write [0x5A] 1, .read 1 (.bytes [0x04]),
          .read 3 (.bytes [0x03, 0x07, 0x00])])
    ∧ (left (exec (.recvFrame 0) (wired (bytes (0x55 :: frameVersion)) [1]))).rx = bytes frameVersion
    ∧ report (.recvFrame 0) (wired (bytes (0xA5 :: frameVersion)) [0])
      = ([.error .transportShortWrite], 7, [.read 1 (.bytes [0xA5]), .write [0x5A] 0]) := by decide

/-- The four sentinel rows are the steps of H1 and H9 (R69, R130). -/
theorem test_sentinels : (left (exec .syncRts (wired [] [1]))).hs = .sentSync
    ∧ report .syncRts (wired [] [1]) = ([], 0, [.write [0x55] 1])
    ∧ report .ackRts (wired (bytes [0xAA]) []) = ([.ok .none], 0, [.read 1 (.bytes [0xAA])])
    ∧ report .syncRtr (wired (bytes [0xA5]) []) = ([], 0, [.read 1 (.bytes [0xA5])])
    ∧ report .ackRtr (wired [] [1]) = ([.ok .none], 0, [.write [0x5A] 1]) := by decide

/-- The seventeen command names (R66): every value is a member, and a block whose set lacks one rejects it. -/
theorem test_command_names : (([.connection, .selectRf, .getVersion, .iso15693Inventory, .iso15693Access, .iso14443aAccess,
      .mifareUlAccess, .iso14443aInventory, .stInventory, .stAccess, .iso14443bInventory, .iso14443bAccess, .felicaInventory,
      .topazInventory, .topazAccess, .setTarget, .setInitiator] : List Instr).map fun i => (report i State.reset).2.1)
      = List.replicate 17 0
    ∧ report .getVersion { State.reset with cfg := { Config.default with getVersion := 0x04 } }
      = ([.error .invalidCommand], 1, [])
    ∧ report .setTarget { State.reset with cfg := { Config.default with cmdset := [0x01, 0x03] } }
      = ([.error .invalidCommand], 1, []) := by decide

/-! ### Witnesses: values that meet the hypotheses of each obligation -/

theorem holding_inv (f : Frame) (h : frameOk Config.default f = true) : (holding f).Inv :=
  ⟨default_wf, (memory_wf_iff _ _).2 ⟨rfl, fun g hg => by simp [holding] at hg; rw [hg]; exact h⟩,
    (by decide : (0 : BitVec 4).toNat ≤ 10), rfl⟩

theorem reset_inv : State.reset.Inv := ⟨default_wf, by decide, by decide, rfl⟩

/-- The last wire row, which has its own byte, and a row that loses its byte to an earlier one. -/
theorem witness_DecodeOfEncodeIsTheInstruction : Instr.ackRtr.ownByte Config.default = true
    ∧ Instr.topazAccess.ownByte Config.default = true
    ∧ Instr.ackRts.ownByte { Config.default with ackRts := 0x55 } = false
    ∧ decode { Config.default with ackRts := 0x55 } (encode { Config.default with ackRts := 0x55 } .ackRts) = .ok .syncRts
    ∧ (Instr.sendFrame 1).wellFormed Config.default = true
    ∧ (Instr.new 0 0xFF [0x00]).wellFormed Config.default = true ∧ Instr.rts.wellFormed Config.default = true := by decide

theorem witness_DecodedInstructionsAreCanonical :
    decode Config.default (.header 0x3109 []) = .ok (.setCommand 1 0x09) := by decide

theorem witness_UnusedHeaderFieldsAreIgnored : opField 0x9000 = opField 0x9FFF ∧ slotField 0x9000 ≠ slotField 0x9FFF
    ∧ (opField 0x9000).toNat ∈ [0x9, 0xA] ∧ (opField 0x9000).toNat ∉ [0x0, 0x3] ∧ (opField 0x9000).toNat ∉ [0x0, 0x1, 0x5]
    ∧ opField 0x2100 = opField 0x21AB ∧ slotField 0x2100 = slotField 0x21AB ∧ cmdField 0x2100 ≠ cmdField 0x21AB
    ∧ (opField 0x2100).toNat ∉ [0x0, 0x3] := by decide

theorem witness_IllegalHeaderEndsWithIllegalOp :
    ({ State.reset with requests := [.header 0xD000 []] } : State).phase = .idle
    ∧ 0xD ≤ (opField 0xD000).toNat ∧ ¬ 0xD ≤ (opField 0xC200).toNat
    ∧ (opField 0xC200).toNat ∉ [0x9, 0xA] ∧ State.reset.cfg.nslot ≤ (slotField 0xC200).toNat := by decide

theorem witness_StepRunsTheDecodedInstruction :
    ({ State.reset with requests := [.header 0x0003 [], .joined 0x9000 0xB000] } : State).phase = .idle
    ∧ decode State.reset.cfg (.header 0x0003 []) = .ok (.new 0 0x03 []) := by decide

theorem witness_StepTakesRequestsOnlyWhenIdle : (left (exec .rts State.reset)).phase ≠ .idle
    ∧ State.reset.phase = .idle ∧ State.reset.requests = [] := by decide

theorem witness_StepStopsOnlyOnWhatIsNoRequest :
    decodePair 0x9000 0xC000 = .error (.notAPair 0x9000 0xC000) ∧ decodeWire Config.default 0x04 = .error (.strayByte 0x04) := by decide

theorem witness_BlockResetLeavesTheTransport : (left (exec .rts (wired [] [1]))).cfg.Wf := default_wf

set_option maxRecDepth 8192 in
theorem witness_EncodedFrameLayout : ([] : List Byte).length ≤ 251 ∧ (List.replicate 251 (0xFF : Byte)).length ≤ 251 := by
  decide

set_option maxRecDepth 8192 in
theorem witness_ChecksumOfHeldFrameNeverWraps : Config.default.Wf ∧ frameOk Config.default frameVersion = true
    ∧ frameOk Config.default (encodeFrame 0x21 (List.replicate 251 0xFF)) = true := ⟨default_wf, by decide⟩

theorem witness_ParserAcceptsExactlyEncodedFrames : Config.default.Wf
    ∧ ({ Config.default with parseCheckCommand := true } : Config).Wf :=
  ⟨default_wf, ⟨by decide, by decide, by decide, by decide, by decide, by decide, by decide, by decide⟩⟩

theorem witness_SingleByteChangeIsCaught : Config.default.Wf ∧ frameOk Config.default frameVersion = true
    ∧ 0 < frameVersion.length ∧ (0x05 : Byte) ≠ byteAt frameVersion 0
    ∧ 3 < frameVersion.length ∧ (0x01 : Byte) ≠ byteAt frameVersion 3 := ⟨default_wf, by decide⟩

set_option maxRecDepth 8192 in
theorem witness_NewBuildsTheEncodedFrame : slotExists State.reset.cfg 1 = true ∧ 0x21 ∈ State.reset.cfg.cmdset
    ∧ (List.replicate 251 (0 : Byte)).length ≤ State.reset.cfg.maxParams := by decide

set_option maxRecDepth 8192 in
theorem witness_NewRejectsBadOperands : slotExists State.reset.cfg 1 = true ∧ 0x22 ∉ State.reset.cfg.cmdset
    ∧ 0x21 ∈ State.reset.cfg.cmdset ∧ State.reset.cfg.maxParams < (List.replicate 252 (0 : Byte)).length := by decide

theorem witness_BuildersLeaveTheirFrames : slotExists State.reset.cfg 1 = true
    ∧ State.reset.cfg = { Config.default with nslot := State.reset.cfg.nslot,
                                              parseCheckCommand := State.reset.cfg.parseCheckCommand } := by decide

theorem witness_SetCommandReencodes : slotExists (holding frameM1).cfg 0 = true ∧ (holding frameM1).slot 0 = some frameM1
    ∧ 0x09 ∈ (holding frameM1).cfg.cmdset ∧ 0x04 ∉ (holding frameM1).cfg.cmdset := by decide

theorem witness_SetCommandWritesThreeBytes : (holding frameM1).Inv ∧ slotExists (holding frameM1).cfg 0 = true
    ∧ (holding frameM1).slot 0 = some frameM1
    ∧ exec (.setCommand 0 0x09) (holding frameM1) = .next (left (exec (.setCommand 0 0x09) (holding frameM1)))
    ∧ 0x09 ∈ (holding frameM1).cfg.cmdset := ⟨holding_inv _ (by decide), by decide, by decide, rfl, by decide⟩

set_option maxRecDepth 8192 in
theorem witness_SetParametersReencodes : slotExists (holding frameM1).cfg 0 = true
    ∧ (holding frameM1).slot 0 = some frameM1 ∧ frameM1[1]? = some 0x02
    ∧ (List.replicate 251 (0 : Byte)).length ≤ (holding frameM1).cfg.maxParams
    ∧ (holding frameM1).cfg.maxParams < (List.replicate 252 (0 : Byte)).length := by decide

set_option maxRecDepth 8192 in
theorem witness_SetParametersLengthLaw : (holding frameM1).Inv ∧ slotExists (holding frameM1).cfg 0 = true
    ∧ (holding frameM1).slot 0 = some frameM1
    ∧ (List.replicate 251 (0 : Byte)).length ≤ (holding frameM1).cfg.maxParams :=
  ⟨holding_inv _ (by decide), by decide, by decide, by decide⟩

theorem witness_RecomputeChecksumWritesTheSum : slotExists (holding frameM1).cfg 0 = true
    ∧ (holding frameM1).slot 0 = some frameM1 ∧ 2 ≤ frameM1.length ∧ frameOk (holding frameM1).cfg frameM1 = true
    ∧ (holding [0x00, 0x00]).slot 0 = some [0x00, 0x00] := by decide

set_option maxRecDepth 8192 in
theorem witness_FrameRoundTrip : State.reset.Inv ∧ slotExists State.reset.cfg 0 = true ∧ slotExists State.reset.cfg 1 = true
    ∧ 0x02 ∈ State.reset.cfg.cmdset ∧ (List.replicate 251 (0 : Byte)).length ≤ State.reset.cfg.maxParams :=
  ⟨reset_inv, by decide⟩

theorem witness_AccessorsReturnTheFields : slotExists (holding frameTest).cfg 0 = true
    ∧ (holding frameTest).slot 0 = some ([0x06, 0x01] ++ [0x05, 0x0A] ++ [0x16, 0x00])
    ∧ (holding frameVersion).slot 0 = some ([0x04, 0x03] ++ [] ++ [0x07, 0x00]) := by decide

theorem witness_EmptySourceSlotIsReported : (Instr.sendFrame 0).source? = some 0 ∧ slotExists State.reset.cfg 0 = true
    ∧ State.reset.slot 0 = none := by decide

theorem witness_MissingSlotIsIllegalOp : (Instr.recvFrame 2).slot? = some 2 ∧ slotExists State.reset.cfg 2 = false := by
  decide

theorem witness_FromBytesHoldsAValidFrame : slotExists State.reset.cfg 1 = true
    ∧ State.reset.cfg.minFrame ≤ frameOutside.length ∧ frameOutside.length ≤ State.reset.cfg.maxFrame
    ∧ (byteAt frameOutside 0).toNat = frameOutside.length
    ∧ le16 (byteAt frameOutside 2) (byteAt frameOutside 3) = sum16 (frameOutside.take 2)
    ∧ State.reset.cfg.parseCheckCommand = false := by decide

set_option maxRecDepth 8192 in
/-- One witness for each of the four failures. -/
theorem witness_FromBytesReportsTheFirstFailure : slotExists State.reset.cfg 1 = true
    ∧ State.reset.cfg.maxFrame < (List.replicate 256 (0 : Byte)).length
    ∧ ([0x03, 0x03, 0x00] : List Byte).length < State.reset.cfg.minFrame
    ∧ (byteAt [0x05, 0x03, 0x07, 0x00] 0).toNat ≠ ([0x05, 0x03, 0x07, 0x00] : List Byte).length
    ∧ le16 (byteAt [0x04, 0x03, 0x07, 0x01] 2) (byteAt [0x04, 0x03, 0x07, 0x01] 3) ≠ sum16 ([0x04, 0x03, 0x07, 0x01].take 2)
    ∧ frameOk { Config.default with parseCheckCommand := true } frameOutside = true
    ∧ byteAt frameOutside 1 ∉ Config.default.cmdset := by decide

theorem witness_RtsExchange : (wired (bytes [0xAA]) [0]).tx = 0 :: [] ∧ (wired (bytes [0xAA]) [0]).rx = .byte 0xAA :: []
    ∧ (wired [.fault] [1]).rx = .fault :: [] ∧ (wired [.fault] [1]).tx = 1 :: [] := by decide

theorem witness_RtrExchange : (wired (bytes [0xA4]) []).rx = .byte 0xA4 :: [] ∧ (0xA4 : Byte) ≠ (wired [] []).cfg.syncRtr
    ∧ (wired [.fault] []).rx = .fault :: [] ∧ (wired (bytes [0xA5]) [0]).rx = .byte (wired [] []).cfg.syncRtr :: []
    ∧ (wired (bytes [0xA5]) [0]).tx = 0 :: [] := by decide

theorem witness_FailedHandshakesEndAtOnce : (wired (bytes [0xAB]) [1]).rx = .byte 0xAB :: []
    ∧ (0xAB : Byte) ≠ (wired [] []).cfg.ackRts ∧ (wired (bytes [0xAB]) [1]).tx = 1 :: []
    ∧ (0xAB : Byte) ≠ (wired [] []).cfg.syncRtr
    ∧ (wired (bytes [0xA5]) [0]).rx = .byte 0xA5 :: [] ∧ (0xA5 : Byte) = (wired [] []).cfg.syncRtr
    ∧ (wired (bytes [0xA5]) [0]).tx = 0 :: [] := by decide

theorem witness_HandshakeWaitsWhereThePseudocodeStands : (wired [] []).tx = [] ∧ (wired [] []).rx = []
    ∧ (wired [] [1]).tx = 1 :: [] ∧ (wired [] [1]).rx = []
    ∧ (wired (bytes [0xA5]) []).rx = .byte (wired [] []).cfg.syncRtr :: [] ∧ (wired (bytes [0xA5]) []).tx = [] := by decide

theorem witness_HandshakeOutcomeAgreesWithState : Instr.ackRtr ∈ ([.rts, .rtr, .ackRts, .ackRtr] : List Instr)
    ∧ exec .ackRtr (wired [] [0]) = .next (left (exec .ackRtr (wired [] [0])))
    ∧ (left (exec .ackRtr (wired [] [0]))).phase = .idle := ⟨by decide, rfl, rfl⟩

/-- SEND_FRAME on an `Empty` slot leaves `hs`; RTS does not. -/
theorem witness_NothingDependsOnHeldHandshakeState : Instr.usesHandshake (.command 0) = false
    ∧ exec (.command 0) State.reset = .next (left (exec (.command 0) State.reset))
    ∧ exec (.sendFrame 0) (State.reset.setHs .failed) = .next ((left (exec (.sendFrame 0) State.reset)).setHs .failed)
    ∧ exec .rts ((wired (bytes [0xAA]) [1]).setHs .failed) = .next (left (exec .rts (wired (bytes [0xAA]) [1]))) :=
  ⟨rfl, rfl, rfl, rfl⟩

theorem witness_NothingDependsOnStatusOrHistory :
    exec .rts (wired (bytes [0xAA]) [1]) = .next (left (exec .rts (wired (bytes [0xAA]) [1]))) := rfl

theorem witness_SentinelStepsComposeToTheExchange : (left (exec .syncRts (wired [] [1]))).phase = .idle
    ∧ (left (exec .syncRtr (wired (bytes [0xA5]) []))).phase = .idle
    ∧ (left (exec .syncRtr (wired (bytes [0xA5]) []))).hs = .idle
    ∧ (left (exec .syncRtr (wired (bytes [0xA4]) []))).phase = .idle
    ∧ (left (exec .syncRtr (wired (bytes [0xA4]) []))).hs ≠ .idle := by decide

theorem witness_SentinelStepsFollowTheEdges : (wired [] [0]).tx = 0 :: [] ∧ (wired (bytes [0xA5]) []).rx = .byte 0xA5 :: []
    ∧ (0xA5 : Byte) = (wired [] []).cfg.syncRtr ∧ (wired (bytes [0xAA]) []).rx = .byte 0xAA :: []
    ∧ (0xAA : Byte) ≠ (wired [] []).cfg.syncRtr ∧ (wired [.fault] []).rx = .fault :: [] ∧ (wired [] []).tx = []
    ∧ (wired [] []).rx = [] := by decide

theorem witness_CommandNamesOnlyTestMembership : Instr.topazAccess.commandValue? State.reset.cfg = some 0x0F
    ∧ Instr.connection.commandValue? { Config.default with connection := 0x02 } = some 0x02
    ∧ 0x0F ∈ State.reset.cfg.cmdset
    ∧ 0x0F ∉ ({ State.reset with cfg := { Config.default with cmdset := [0x01, 0x03] } } : State).cfg.cmdset := by decide

theorem witness_TxFrameWritesTheHeldBytes : slotExists (holdingWired frameTest [] [5]).cfg 0 = true
    ∧ (holdingWired frameTest [] [5]).slot 0 = some frameTest ∧ (holdingWired frameTest [] [5]).tx = 5 :: []
    ∧ (5 < frameTest.length) ∧ ¬ (6 < frameTest.length) ∧ (holdingWired frameTest [] []).tx = [] := by decide

theorem witness_TxFrameSendsOffsetZeroFirst : slotExists (holdingWired frameTest [] [6]).cfg 0 = true
    ∧ (holdingWired frameTest [] [6]).slot 0 = some frameTest
    ∧ exec (.txFrame 0) (holdingWired frameTest [] [6]) = .next (left (exec (.txFrame 0) (holdingWired frameTest [] [6])))
    ∧ (left (exec (.txFrame 0) (holdingWired frameTest [] [6]))).phase = .idle
    ∧ (left (exec (.txFrame 0) (holdingWired frameTest [] [6]))).status = 0 := ⟨rfl, rfl, rfl, rfl, rfl⟩

theorem witness_RxFrameHoldsTheReceivedFrame : slotExists (wired (bytes (frameVersion ++ [0x99])) []).cfg 1 = true
    ∧ (wired (bytes (frameVersion ++ [0x99])) []).cfg.Wf
    ∧ (wired (bytes (frameVersion ++ [0x99])) []).rx = (0x04 :: [0x03, 0x07, 0x00]).map RxItem.byte ++ [.byte 0x99]
    ∧ frameOk (wired [] []).cfg (0x04 :: [0x03, 0x07, 0x00]) = true
    ∧ byteAt (0x04 :: [0x03, 0x07, 0x00]) 1 ∈ (wired [] []).cfg.cmdset :=
  ⟨by decide, default_wf, by decide, by decide, by decide⟩

/-- At length bytes 0, 1, 3, and a bad checksum. -/
theorem witness_RxFrameReportsTheParsersError : slotExists (wired [] []).cfg 1 = true
    ∧ (([] : List Byte).length = (0x00 : Byte).toNat - 1 ∧ parse (wired [] []).cfg [0x00] = .error .lengthMismatch)
    ∧ (([] : List Byte).length = (0x01 : Byte).toNat - 1 ∧ parse (wired [] []).cfg [0x01] = .error .lengthMismatch)
    ∧ (([0x09, 0x09] : List Byte).length = (0x03 : Byte).toNat - 1
        ∧ parse (wired [] []).cfg [0x03, 0x09, 0x09] = .error .lengthMismatch)
    ∧ (([0x03, 0x04, 0x00] : List Byte).length = (0x04 : Byte).toNat - 1
        ∧ parse (wired [] []).cfg [0x04, 0x03, 0x04, 0x00] = .error .checksumMismatch) := ⟨rfl, ⟨rfl, rfl⟩, ⟨rfl, rfl⟩,
  ⟨rfl, rfl⟩, ⟨rfl, rfl⟩⟩

theorem witness_RxFrameFaultsAndWaits : slotExists (wired [] []).cfg 1 = true ∧ (wired [.fault] []).rx = .fault :: []
    ∧ (wired [.byte 0x02, .fault] []).rx = (0x02 :: ([] : List Byte)).map RxItem.byte ++ .fault :: []
    ∧ ([] : List Byte).length + 1 < (0x02 : Byte).toNat ∧ (wired [] []).rx = []
    ∧ (wired (bytes [0x06, 0x01, 0x05]) []).rx = (0x06 :: [0x01, 0x05]).map RxItem.byte
    ∧ ([0x01, 0x05] : List Byte).length + 1 < (0x06 : Byte).toNat := by decide

theorem witness_SendFrameIsRtsThenTxFrame : slotExists (holdingWired frameVersion (bytes [0xAA]) [1]).cfg 0 = true
    ∧ (holdingWired frameVersion (bytes [0xAA]) [1]).slot 0 = some frameVersion
    ∧ (left (exec .rts (holdingWired frameVersion (bytes [0xAA]) [1]))).phase = .idle
    ∧ (left (exec .rts (holdingWired frameVersion (bytes [0xAA]) [1]))).status = 0
    ∧ (left (exec .rts (holdingWired frameVersion (bytes [0x00]) [1]))).phase = .idle
    ∧ (left (exec .rts (holdingWired frameVersion (bytes [0x00]) [1]))).status ≠ 0
    ∧ (left (exec .rts (holdingWired frameVersion [] []))).phase = .rtsWrite none
    ∧ (left (exec .rts (holdingWired frameVersion [] [0]))).phase = .rtsRead none := by decide

theorem witness_RecvFrameIsRtrThenRxFrame : slotExists (wired (bytes [0xA5]) [1]).cfg 0 = true
    ∧ (left (exec .rtr (wired (bytes [0xA5]) [1]))).phase = .idle
    ∧ (left (exec .rtr (wired (bytes [0xA5]) [1]))).status = 0
    ∧ (left (exec .rtr (wired (bytes [0xA5]) [0]))).phase = .idle
    ∧ (left (exec .rtr (wired (bytes [0xA5]) [0]))).status ≠ 0
    ∧ (left (exec .rtr (wired [] []))).phase = .rtrRead none
    ∧ (left (exec .rtr (wired (bytes [0xA5]) []))).phase = .rtrWrite none := by decide

theorem witness_JoinedSequencesRunToTheEnd : slotExists (holdingWired frameVersion (bytes [0xAA]) [0, 4]).cfg 0 = true
    ∧ (holdingWired frameVersion (bytes [0xAA]) [0, 4]).slot 0 = some (0x04 :: [0x03, 0x07, 0x00])
    ∧ (holdingWired frameVersion (bytes [0xAA]) [0, 4]).tx = 0 :: 4 :: [] ∧ ([0x03, 0x07, 0x00] : List Byte).length < 4
    ∧ (holdingWired frameVersion (bytes [0xAA]) [0, 4]).rx = .byte (wired [] []).cfg.ackRts :: []
    ∧ (wired (bytes (0xA5 :: frameVersion)) [1]).tx = 1 :: []
    ∧ (wired (bytes (0xA5 :: frameVersion)) [1]).rx
        = .byte (wired [] []).cfg.syncRtr :: (0x04 :: [0x03, 0x07, 0x00]).map RxItem.byte ++ []
    ∧ frameOk (wired [] []).cfg (0x04 :: [0x03, 0x07, 0x00]) = true := by decide

theorem witness_SilentTransportHangsTheOperation : (left (exec .rts State.reset)).Inv
    ∧ (left (exec .rts State.reset)).phase ≠ .idle ∧ (left (exec .rts State.reset)).rx = []
    ∧ (left (exec .rts State.reset)).tx = [] :=
  ⟨⟨default_wf, by decide, by decide, ⟨rfl, rfl, fun q h => by cases h⟩⟩, by decide, by decide, by decide⟩

theorem witness_ResumedOperationEqualsUninterrupted :
    exec (.rxFrame 0) (wired (bytes [0x06, 0x01]) [])
      = .next (left (exec (.rxFrame 0) (wired (bytes [0x06, 0x01]) [])))
    ∧ (left (exec (.rxFrame 0) (wired (bytes [0x06, 0x01]) []))).phase = .rxRest 0
    ∧ (wired (bytes [0x06, 0x01]) []).phase = .idle := ⟨rfl, rfl, rfl⟩

theorem witness_OnlyTheDestinationSlotChanges : exec (.new 0 0x03 []) (holding frameTest)
      = .next (left (exec (.new 0 0x03 []) (holding frameTest)))
    ∧ (Instr.new 0 0x03 []).dest? ≠ some 1 ∧ (Instr.command 0).dest? = none := ⟨rfl, by decide, rfl⟩

theorem witness_RegistersAndStreamsFrame : exec (.command 0) (holding frameTest)
      = .next (left (exec (.command 0) (holding frameTest)))
    ∧ (Instr.txFrame 0).usesHandshake = false ∧ (Instr.command 0).usesTransport = false := ⟨rfl, rfl, rfl⟩

theorem witness_OtherSlotsAreNeitherReadNorWritten : (Instr.setCommand 0 0x09).slot? ≠ some 1 ∧ Instr.rts.slot? ≠ some 1
    ∧ exec (.setCommand 0 0x09) (holding frameM1) = .next (left (exec (.setCommand 0 0x09) (holding frameM1))) :=
  ⟨by decide, by decide, rfl⟩

theorem witness_ErrorsChangeNoSlot :
    step { holding frameTest with requests := [.header 0x0004 []] }
      = .next (left (step { holding frameTest with requests := [.header 0x0004 []] }))
    ∧ (left (step { holding frameTest with requests := [.header 0x0004 []] })).status ≠ 0 := ⟨rfl, by decide⟩

theorem witness_OutcomesAreThoseOfTheMatrix : (Instr.recvFrame 1).wellFormed State.reset.cfg = true
    ∧ State.reset.cfg.maxFrame = 255 ∧ State.reset.cfg.Wf
    ∧ exec (.recvFrame 1) State.reset = .next (left (exec (.recvFrame 1) State.reset)) :=
  ⟨by decide, rfl, default_wf, rfl⟩

theorem witness_StepKeepsStatusLatched :
    ({ State.reset with status := 9, delivered := [.error .slotEmpty], requests := [.header 0x0003 []] } : State).StatusLatched
    ∧ step { State.reset with status := 9, delivered := [.error .slotEmpty], requests := [.header 0x0003 []] }
      = .next (left (step { State.reset with status := 9, delivered := [.error .slotEmpty],
                                             requests := [.header 0x0003 []] })) :=
  ⟨fun x h => by simp at h; subst h; rfl, rfl⟩

theorem witness_StepKeepsTheInvariant : ({ State.reset with requests := [.header 0x0003 []] } : State).Inv
    ∧ (left (step { State.reset with requests := [.header 0x0003 []] })).slot 0 = some frameVersion :=
  ⟨⟨default_wf, by decide, by decide, rfl⟩, by decide⟩

theorem witness_StepKeepsCommandsVettedUnderTheSwitch :
    ({ State.reset with cfg := { Config.default with parseCheckCommand := true }, requests := [.header 0x0003 []] } : State).Inv
    ∧ ({ State.reset with cfg := { Config.default with parseCheckCommand := true } } : State).CommandsVetted :=
  ⟨⟨⟨by decide, by decide, by decide, by decide, by decide, by decide, by decide, by decide⟩, by decide, by decide, rfl⟩,
    fun d f h => by
      have : ∀ d : SlotIx, ({ State.reset with cfg := { Config.default with parseCheckCommand := true } } : State).slot d
          = none := by decide
      simp [this d] at h⟩

end Sys2Proof.Tests
end

section
/-!
The frame codec's layout: the two bytes of a checksum as numbers, the sum over an encoded frame's covered bytes, and the
obligation about both (R62, R63). -/
namespace Sys2Proof.Proofs

open Machine

theorem lo8_eq_ofNat (v : Half) : lo8 v = BitVec.ofNat 8 (v.toNat % 256) := by
  apply BitVec.eq_of_toNat_eq
  simp [lo8]

theorem hi8_eq_ofNat (v : Half) : hi8 v = BitVec.ofNat 8 (v.toNat / 256) := by
  apply BitVec.eq_of_toNat_eq
  simp [hi8, Nat.shiftRight_eq_div_pow]

/-- The sum over the bytes that an encoded frame's checksum covers (R63): the length byte enters as `4 + len(P)` because it
does not wrap (R62). -/
theorem sum16_header_toNat (cmd : Byte) {p : List Byte} (h : p.length ≤ 251) :
    (sum16 ([BitVec.ofNat 8 (4 + p.length), cmd] ++ p)).toNat
      = (4 + p.length + cmd.toNat + (p.map BitVec.toNat).sum) % 65536 := by
  have hlen : (4 + p.length) % 256 = 4 + p.length := Nat.mod_eq_of_lt (by omega)
  rw [sum16_toNat]
  simp [hlen, Nat.add_assoc]

/-- Settles O13: the encoder's bytes are the header followed by `lo8` and `hi8` of its sum. -/
theorem encodedFrameLayout : Obligations.EncodedFrameLayout := by
  intro cmd p hp
  have hsum := sum16_header_toNat cmd hp
  refine ⟨length_encodeFrame cmd p, ?layout, byteAt_encodeFrame_zero cmd p hp, ?readBack⟩
  case layout => rw [encodeFrame, withChecksum, lo8_eq_ofNat, hi8_eq_ofNat, hsum]
  case readBack => rw [encodeFrame, storedChecksum_withChecksum, hsum]

end Sys2Proof.Proofs
end

section
/-!
What the frame instructions come to when their operands are good, one equation each, in the state's own operations `setSlot`
and `complete`; and which slots then hold what (R11, R90, R93, R110, R111, R113, R120). -/
namespace Sys2Proof.Proofs

open Machine

variable {s : State}

theorem exec_new_eq {d : SlotIx} {cmd : Byte} {p : List Byte} (hd : slotExists s.cfg d = true)
    (hcmd : cmd ∈ s.cfg.cmdset) (hp : p.length ≤ s.cfg.maxParams) :
    exec (.new d cmd p) s = .next ((s.setSlot d (encodeFrame cmd p)).complete (.ok .none)) := by
  change Host.Outcome.next (newFrame d cmd p s) = _
  rw [newFrame, withSlot_eq hd, withCommand_eq hcmd, withParams_eq hp, storeFrame, finish_eq]

theorem exec_toBytes_eq {q : SlotIx} {f : Frame} (hq : slotExists s.cfg q = true) (hf : s.slot q = some f) :
    exec (.toBytes q) s = .next (s.complete (.ok (.bytes f))) :=
  congrArg Host.Outcome.next (withFrame_eq hq hf)

theorem exec_command_eq {q : SlotIx} {f : Frame} (hq : slotExists s.cfg q = true) (hf : s.slot q = some f) :
    exec (.command q) s = .next (s.complete (.ok (.byte (byteAt f 1)))) :=
  congrArg Host.Outcome.next (withFrame_eq hq hf)

theorem exec_parameters_eq {q : SlotIx} {f : Frame} (hq : slotExists s.cfg q = true) (hf : s.slot q = some f) :
    exec (.parameters q) s = .next (s.complete (.ok (.bytes (paramsOf f)))) :=
  congrArg Host.Outcome.next (withFrame_eq hq hf)

theorem exec_setParameters_eq {q : SlotIx} {f : Frame} {p : List Byte} (hq : slotExists s.cfg q = true)
    (hf : s.slot q = some f) (hp : p.length ≤ s.cfg.maxParams) :
    exec (.setParameters q p) s = .next ((s.setSlot q (encodeFrame (byteAt f 1) p)).complete (.ok .none)) := by
  change Host.Outcome.next (withFrame q _ s) = _
  rw [withFrame_eq hq hf, withParams_eq hp, storeFrame, finish_eq]

/-- FROM_BYTES of bytes that the parser accepts stores them as they are: the parser changes no byte. -/
theorem exec_fromBytes_eq {d : SlotIx} {raw : List Byte} (hd : slotExists s.cfg d = true)
    (hok : parse s.cfg raw = .ok raw) :
    exec (.fromBytes d raw) s = .next ((s.setSlot d raw).complete (.ok .none)) := by
  change Host.Outcome.next (withSlot d _ s) = _
  rw [withSlot_eq hd, storeParsed, hok]
  rfl

/-- The parser accepts the encoder's frame of a member of `CMDSET`, whatever the switch says (R124). -/
theorem parse_encodeFrame {c : Config} (hc : c.Wf) {cmd : Byte} {p : List Byte} (hcmd : cmd ∈ c.cmdset)
    (hp : p.length ≤ c.maxParams) : parse c (encodeFrame cmd p) = .ok (encodeFrame cmd p) := by
  rw [parse_ok_iff, byteAt_encodeFrame_one, inCmdset_iff]
  exact ⟨rfl, frameOk_encodeFrame hc cmd hp, fun _ => hcmd⟩

/-- `MAX_PARAMS` is at most 251, so an encoded frame's length fits its length byte (R6, R62). -/
theorem maxParams_le_of_wf {c : Config} (hc : c.Wf) : c.maxParams ≤ 251 := by
  have hmin := hc.minFrame
  have hid := hc.identity
  have hbyte := hc.lengthByte
  omega

/-- Under the invariant the slot file has an entry for every slot that exists (R20). -/
theorem lt_length_of_slotExists (hs : s.Inv) {d : SlotIx} (hd : slotExists s.cfg d = true) :
    d.toNat < s.slots.length := by
  obtain ⟨hlen, -⟩ := (memory_wf_iff _ _).1 hs.memory
  rw [hlen]
  exact of_decide_eq_true hd

/-- Writing to any slot the bytes that slot `a` holds leaves `a` holding them. -/
theorem slot_setSlot_copy {a b : SlotIx} {f : Frame} (ha : s.slot a = some f) : (s.setSlot b f).slot a = some f := by
  by_cases hab : a = b
  · subst hab
    exact State.slot_setSlot_same _ a f (State.lt_of_slot ha)
  · rw [State.slot_setSlot_other _ b a f hab, ha]

end Sys2Proof.Proofs
end

section
/-!
The frame encoder's laws over whole instructions: the round trip of R100 and the length law of R94. -/
namespace Sys2Proof.Proofs

open Machine

/-- Settles O25: NEW leaves the encoded frame `raw` in `a`; the parser accepts it unchanged, so `b` holds `raw` too, and the
accessors of an encoded frame return what it was encoded from. -/
theorem frameRoundTrip : Obligations.FrameRoundTrip := by
  intro s a b cmd p hs ha hb hcmd hp
  have hslotA : (s.setSlot a (encodeFrame cmd p)).slot a = some (encodeFrame cmd p) :=
    State.slot_setSlot_same _ a _ (lt_length_of_slotExists hs ha)
  have hslotB : ((s.setSlot a (encodeFrame cmd p)).setSlot b (encodeFrame cmd p)).slot b = some (encodeFrame cmd p) :=
    State.slot_setSlot_same _ b _ (by simpa using lt_length_of_slotExists hs hb)
  have hparse := parse_encodeFrame hs.cfg hcmd hp
  refine ⟨_, _, _, _, _, encodeFrame cmd p, exec_new_eq ha hcmd hp, rfl, exec_toBytes_eq ha hslotA, rfl,
    exec_fromBytes_eq hb hparse, rfl, exec_command_eq hb hslotB, ?command, exec_parameters_eq hb hslotB, ?parameters,
    hslotB, slot_setSlot_copy hslotA⟩
  case command => rw [State.complete_delivered, byteAt_encodeFrame_one]
  case parameters => rw [State.complete_delivered, paramsOf_encodeFrame]

/-- Settles O23: the new frame is an encoded one, of `4 + len(P)` bytes, which its length byte holds without wrap (R62). -/
theorem setParametersLengthLaw : Obligations.SetParametersLengthLaw := by
  intro s q p f hs hq hf hp
  have hp251 : p.length ≤ 251 := hp.trans (maxParams_le_of_wf hs.cfg)
  have hlen := length_encodeFrame (byteAt f 1) p
  refine ⟨_, encodeFrame (byteAt f 1) p, exec_setParameters_eq hq hf hp, ?held, ?lengthChange, ?lengthByte⟩
  case held => exact State.slot_setSlot_same _ q _ (State.lt_of_slot hf)
  case lengthChange => omega
  case lengthByte => rw [byteAt_encodeFrame_zero _ _ hp251, hlen]

end Sys2Proof.Proofs
end

section
/-!
How RTS and RTR fail on what the transport answers, one equation for each failing edge, in the state's own operations `setHs`
and `complete`: the record update holds every transport event of the exchange (R132, R134, R135). -/
namespace Sys2Proof.Proofs

open Machine

variable {s : State} {b : Byte} {rx' : List RxItem}

theorem exec_rts_desync {room : Nat} {tx' : List Nat} (hrx : s.rx = .byte b :: rx') (htx : s.tx = room :: tx')
    (hb : b ≠ s.cfg.ackRts) :
    exec .rts s = .next ((State.setHs
      { s with tx := tx', rx := rx',
               trace := s.trace ++ [.write [s.cfg.syncRts] (min room 1)] ++ [.read 1 (.bytes [b])] } .failed).complete
        (.error .handshakeDesync)) := by
  have hwrite := txWrite_of_room (s := s.setHs .idle) [s.cfg.syncRts] htx
  have hread := rxRead_one_byte (s := State.setHs
    { s with tx := tx', trace := s.trace ++ [.write [s.cfg.syncRts] (min room 1)] } .sentSync) hrx
  have hreply : [b] ≠ [s.cfg.ackRts] := by simpa using hb
  have hend := (rtsWrite_answered (n := none) hwrite).trans (rtsRead_desync hread hreply)
  exact congrArg Host.Outcome.next hend

theorem exec_rtr_desync (hrx : s.rx = .byte b :: rx') (hb : b ≠ s.cfg.syncRtr) :
    exec .rtr s = .next ((State.setHs
      { s with rx := rx', trace := s.trace ++ [.read 1 (.bytes [b])] } .failed).complete (.error .handshakeDesync)) := by
  have hread := rxRead_one_byte (s := s.setHs .idle) hrx
  have hfirst : [b] ≠ [s.cfg.syncRtr] := by simpa using hb
  have hend := rtrRead_desync (n := none) hread hfirst
  exact congrArg Host.Outcome.next hend

theorem exec_rtr_shortWrite {tx' : List Nat} (hrx : s.rx = .byte b :: rx') (htx : s.tx = 0 :: tx')
    (hb : b = s.cfg.syncRtr) :
    exec .rtr s = .next ((State.setHs
      { s with tx := tx', rx := rx',
               trace := s.trace ++ [.read 1 (.bytes [b])] ++ [.write [s.cfg.ackRtr] 0] } .failed).complete
        (.error .transportShortWrite)) := by
  have hread := rxRead_one_byte (s := s.setHs .idle) hrx
  have hwrite := txWrite_of_room (s := State.setHs
    { s with rx := rx', trace := s.trace ++ [.read 1 (.bytes [b])] } .idle) [s.cfg.ackRtr] htx
  have hfirst : [b] = [s.cfg.syncRtr] := by rw [hb]
  have hend := (rtrRead_sync (n := none) hread hfirst).trans (rtrWrite_short hwrite (by simp))
  exact congrArg Host.Outcome.next hend

/-- Settles O33: on each failing edge the whole next state is known, and its trace holds no event after the failing one. -/
theorem failedHandshakesEndAtOnce : Obligations.FailedHandshakesEndAtOnce := by
  intro s b rx' hrx
  refine ⟨?rtsDesync, ?rtrDesync, ?rtrShortWrite⟩
  case rtsDesync =>
    intro room tx' hb htx
    exact ⟨_, exec_rts_desync hrx htx hb, rfl, rfl, rfl, List.append_assoc .., rfl, rfl⟩
  case rtrDesync =>
    intro hb
    exact ⟨_, exec_rtr_desync hrx hb, rfl, rfl, rfl, rfl, rfl, rfl⟩
  case rtrShortWrite =>
    intro tx' hb htx
    exact ⟨_, exec_rtr_shortWrite hrx htx hb, rfl, rfl, rfl, List.append_assoc .., rfl, rfl⟩

end Sys2Proof.Proofs
end

section
/-!
The request codec (R72 to R77): decoding is the inverse of encoding up to the canonical form, and what the decoder lets
through is canonical. -/
namespace Sys2Proof.Proofs

/-- The canonical form of every instruction is canonical, exists on the same blocks, and has the same words. -/
theorem canonicalForm (i : Instr) : Laws.CanonicalForm.Statement i := by
  cases i <;> exact fun _ => ⟨rfl, rfl⟩

theorem encode_canonical (c : Config) (i : Instr) : encode c (i.canonical c) = encode c i := by
  cases i <;> rfl

/-- Only the wire rows share words with other instructions: every other encoded request selects the canonical form. -/
theorem decodeBits_encode_of_not_wire {c : Config} {i : Instr} (h : ∀ b, encode c i ≠ .wire b) :
    decodeBits c (encode c i) = .ok (i.canonical c) := by
  cases i with
  | sendFrame q | recvFrame d => simp [encode, decodeBits, decodePair, Instr.canonical]
  | new | fromBytes | command | setCommand | parameters | setParameters | checksum | recomputeChecksum | toBytes | rts | rtr
  | txFrame | rxFrame | versionRequest | testRequest => simp [encode, decodeBits, decodeHeader, Instr.canonical]
  | _ => exact absurd rfl (h _)

/-- The byte of a wire row selects the row's canonical form exactly when no earlier row has it (assumption log 25). -/
theorem decodeBits_encode_of_ownByte {c : Config} {i : Instr} (h : i.ownByte c = true) :
    decodeBits c (encode c i) = .ok (i.canonical c) := by
  cases he : encode c i with
  | wire b => exact (decodeWire_ok_iff c b _).2 ⟨mem_wireRows_of_encode he, (ownByte_iff he).1 h⟩
  | header | joined => rw [← he]; exact decodeBits_encode_of_not_wire fun b hb => by simp [he] at hb

theorem decode_encode {c : Config} {i : Instr} (hw : i.wellFormed c = true) (ho : i.ownByte c = true) :
    decode c (encode c i) = .ok (i.canonical c) :=
  (decode_ok_iff _ _ _).2 ⟨decodeBits_encode_of_ownByte ho, (canonicalForm i c).2.trans hw⟩

/-- A byte that some wire row has selects a wire row with that byte. -/
theorem decodeWire_of_mem {c : Config} {b : Byte} {i : Instr} (h : (b, i) ∈ wireRows c) :
    ∃ j, decodeWire c b = .ok j ∧ (b, j) ∈ wireRows c := by
  cases hf : (wireRows c).find? fun row => row.1 == b with
  | none => exact absurd (List.find?_eq_none.1 hf _ h) (by simp)
  | some row =>
    have hb : row.1 = b := by simpa using List.find?_some hf
    exact ⟨row.2, by simp [decodeWire, hf], hb ▸ List.mem_of_find?_eq_some hf⟩

/-- Every instruction's words select an instruction with the same words. -/
theorem decode_encode_same_words {c : Config} {i : Instr} (hw : i.wellFormed c = true) :
    ∃ j, decode c (encode c i) = .ok j ∧ encode c j = encode c i := by
  cases he : encode c i with
  | wire b =>
    obtain ⟨j, hj, hmem⟩ := decodeWire_of_mem (mem_wireRows_of_encode he)
    obtain ⟨henc, -, hwf⟩ := wireRows_spec c hmem
    exact ⟨j, (decode_ok_iff _ _ _).2 ⟨hj, hwf⟩, henc⟩
  | header | joined =>
    have hown : i.ownByte c = true := by simp [Instr.ownByte, he]
    exact ⟨i.canonical c, by rw [← he]; exact decode_encode hw hown, by rw [encode_canonical, he]⟩

/-- No two rows share a byte under the default parameters. -/
theorem ownByte_default (i : Instr) : i.ownByte Config.default = true := by
  cases i <;> rfl

/-- Settles O2: a request that is no wire byte decodes by its fields, a wire byte to the first row that has it. -/
theorem decodeOfEncodeIsTheInstruction : Obligations.DecodeOfEncodeIsTheInstruction :=
  ⟨fun _ _ hw => ⟨decode_encode hw, decode_encode_same_words hw⟩, ownByte_default⟩

/-! ### What the decoder lets through -/

/-- A header selects one of the thirteen primary operations, which are canonical and no wire rows. -/
theorem decodeHeader_ok {c : Config} {h : Half} {p : List Byte} {i : Instr} (hi : decodeHeader h p = .ok i) :
    i.canonical c = i ∧ i.ownByte c = true := by
  unfold decodeHeader at hi
  split at hi <;> cases hi <;> exact ⟨rfl, rfl⟩

theorem decodePair_ok {c : Config} {a b : Half} {i : Instr} (hi : decodePair a b = .ok i) :
    i.canonical c = i ∧ i.ownByte c = true := by
  unfold decodePair at hi
  split at hi <;> cases hi <;> exact ⟨rfl, rfl⟩

theorem decodeWire_ok {c : Config} {b : Byte} {i : Instr} (hi : decodeWire c b = .ok i) :
    i.canonical c = i ∧ i.ownByte c = true := by
  obtain ⟨hmem, hfirst⟩ := (decodeWire_ok_iff c b i).1 hi
  obtain ⟨henc, hcan, -⟩ := wireRows_spec c hmem
  exact ⟨hcan, (ownByte_iff henc).2 (by rwa [hcan])⟩

theorem decodeBits_ok {c : Config} {r : Request} {i : Instr} (hi : decodeBits c r = .ok i) :
    i.canonical c = i ∧ i.ownByte c = true := by
  cases r with
  | header h p => exact decodeHeader_ok hi
  | joined a b => exact decodePair_ok hi
  | wire b => exact decodeWire_ok hi

/-- Settles O3: each of the three decoders answers canonical instructions only, and those decode back by `decode_encode`. -/
theorem decodedInstructionsAreCanonical : Obligations.DecodedInstructionsAreCanonical := by
  intro c r i hi
  obtain ⟨hbits, hw⟩ := (decode_ok_iff c r i).1 hi
  obtain ⟨hcan, hown⟩ := decodeBits_ok hbits
  exact ⟨hw, hown, hcan, by rw [decode_encode hw hown, hcan]⟩

/-- Settles O4: each arm of the header decoder reads only the fields its format uses. -/
theorem unusedHeaderFieldsAreIgnored : Obligations.UnusedHeaderFieldsAreIgnored := by
  intro c h h' p p' hop hslot hcmd hoperand
  have hbits : decodeHeader h p = decodeHeader h' p' := by
    unfold decodeHeader
    rw [← hop]
    split <;> simp_all
  simp only [decode, decodeBits, hbits]

end Sys2Proof.Proofs
end

section
/-!
The step: one equation for each thing it can have to do (R51, R73, R172), and what each kind of rejected request is. -/
namespace Sys2Proof.Proofs

open Machine

variable {s : State} {r : Request} {rest : List Request}

theorem step_resume (hp : s.phase ≠ .idle) : step s = .next (resumePhase s.phase s) := by
  obtain ⟨h, -⟩ | ⟨-, h⟩ | ⟨_, _, _, h, -⟩ | ⟨_, _, _, h, -⟩ := step_cases s
  · exact absurd h hp
  · exact h
  · exact absurd h hp
  · exact absurd h hp

theorem step_wait (hp : s.phase = .idle) (hr : s.requests = []) : step s = .next s := by
  simp [step, fetch, hp, hr]

theorem step_run {i : Instr} (hp : s.phase = .idle) (hr : s.requests = r :: rest) (hd : decode s.cfg r = .ok i) :
    step s = exec i { s with requests := rest } := by
  simp [step, fetch, hp, hr, hd]

theorem step_reject {e : Reject} (hp : s.phase = .idle) (hr : s.requests = r :: rest) (hd : decode s.cfg r = .error e) :
    step s = rejectRequest e { s with requests := rest } := by
  simp [step, fetch, hp, hr, hd]

/-! ### Rejected requests -/

theorem decodeHeader_unused {h : Half} (p : List Byte) (hop : 0xD ≤ (opField h).toNat) :
    decodeHeader h p = .error (.unusedCode (opField h)) := by
  unfold decodeHeader
  split
  case h_14 => rfl
  all_goals omega

/-- A used code whose format has a slot selects an instruction on the header's slot. -/
theorem decodeHeader_slot {h : Half} (p : List Byte) (hop : (opField h).toNat < 0xD) (hslot : (opField h).toNat ∉ [0x9, 0xA]) :
    ∃ i, decodeHeader h p = .ok i ∧ i.slot? = some (slotField h) := by
  unfold decodeHeader
  split
  case h_14 => simp_all; omega
  all_goals simp_all [Instr.slot?]

theorem checkSlot_missing {c : Config} {i : Instr} {d : SlotIx} (hi : i.slot? = some d) (hd : c.nslot ≤ d.toNat) :
    checkSlot c i = .error (.slotOutOfRange d) := by
  simp [checkSlot, hi, slotExists, Nat.not_lt.2 hd]

/-- The request decoder's two rejections of a header (R73). -/
theorem decode_header_illegal {c : Config} {h : Half} (p : List Byte)
    (hill : 0xD ≤ (opField h).toNat ∨ ((opField h).toNat ∉ [0x9, 0xA] ∧ c.nslot ≤ (slotField h).toNat)) :
    decode c (.header h p) = .error (.unusedCode (opField h))
    ∨ decode c (.header h p) = .error (.slotOutOfRange (slotField h)) := by
  by_cases hop : 0xD ≤ (opField h).toNat
  · exact .inl (by simp only [decode, decodeBits, decodeHeader_unused p hop])
  · obtain ⟨hslot, hd⟩ := hill.resolve_left hop
    obtain ⟨i, hi, hs⟩ := decodeHeader_slot p (Nat.lt_of_not_le hop) hslot
    exact .inr (by simp only [decode, decodeBits, hi, checkSlot_missing hs hd])

/-- Only two joined headers are rejected as no pair, and only a wire byte as stray: the slot test makes neither answer. -/
theorem decode_error_cases {c : Config} {r : Request} {e : Reject} (h : decode c r = .error e) :
    (∃ op, e = .unusedCode op) ∨ (∃ d, e = .slotOutOfRange d)
    ∨ (∃ a b, r = .joined a b ∧ decodePair a b = .error (.notAPair a b) ∧ e = .notAPair a b)
    ∨ (∃ b, r = .wire b ∧ decodeWire c b = .error (.strayByte b) ∧ e = .strayByte b) := by
  unfold decode at h
  cases hb : decodeBits c r with
  | ok i =>
    simp only [hb, checkSlot] at h
    split at h
    · split at h <;> cases h
      exact .inr (.inl ⟨_, rfl⟩)
    · cases h
  | error e' =>
    simp only [hb, Except.error.injEq] at h
    subst h
    cases r with
    | header h p =>
      change decodeHeader h p = _ at hb
      unfold decodeHeader at hb
      split at hb <;> cases hb
      exact .inl ⟨_, rfl⟩
    | joined a b =>
      have he : e' = .notAPair a b := by
        change decodePair a b = _ at hb
        unfold decodePair at hb
        split at hb <;> cases hb
        rfl
      exact .inr (.inr (.inl ⟨a, b, rfl, he ▸ hb, he⟩))
    | wire b =>
      have he : e' = .strayByte b := by
        change decodeWire c b = _ at hb
        unfold decodeWire at hb
        split at hb <;> cases hb
        rfl
      exact .inr (.inr (.inr ⟨b, rfl, he ▸ hb, he⟩))

/-! ### The obligations -/

/-- Settles O7. -/
theorem stepRunsTheDecodedInstruction : Obligations.StepRunsTheDecodedInstruction :=
  fun _ _ _ _ => step_run

/-- Settles O5: both rejections of a header raise `IllegalOp`. -/
theorem illegalHeaderEndsWithIllegalOp : Obligations.IllegalHeaderEndsWithIllegalOp := by
  intro s h p rest hp hr hill
  rcases decode_header_illegal p hill with hd | hd <;> exact step_reject hp hr hd

/-- Settles O9: every meaning answers a next state, and of the four rejections only the last two are faults. -/
theorem stepStopsOnlyOnWhatIsNoRequest : Obligations.StepStopsOnlyOnWhatIsNoRequest := by
  intro s
  obtain ⟨-, -, h⟩ | ⟨-, h⟩ | ⟨r, rest, i, -, -, -, h⟩ | ⟨r, rest, e, hp, hr, hd, h⟩ := step_cases s
  · exact .inl ⟨_, h⟩
  · exact .inl ⟨_, h⟩
  · obtain ⟨t, ht, -⟩ := exec_moves i { s with requests := rest }
    exact .inl ⟨t, h.trans ht⟩
  · obtain ⟨_, rfl⟩ | ⟨_, rfl⟩ | ⟨a, b, rfl, hpair, rfl⟩ | ⟨b, rfl, hwire, rfl⟩ := decode_error_cases hd
    · exact .inl ⟨_, h⟩
    · exact .inl ⟨_, h⟩
    · exact .inr ⟨hp, rest, .inl ⟨a, b, hr, hpair, h⟩⟩
    · exact .inr ⟨hp, rest, .inr ⟨b, hr, hwire, h⟩⟩

end Sys2Proof.Proofs
end

section
/-!
What every instruction and every step keeps, by induction on the elementary changes it is made of (`Moves`): the parameters, the
host's requests, the growing records, the two streams, the slots that are not its destination (R23, R27, R45, R50), and the
agreement of `STATUS` with the last outcome (R26). -/
namespace Sys2Proof.Proofs

open Machine

variable {hsOk ioOk : Bool} {dst : Option SlotIx} {s t u : State}

/-! ### Parameters, requests, records and streams -/

/-- From `s` to `t` the parameters and the host's requests stay, the two records grow at their end, and the two streams lose
items at their front. -/
structure Extends (s t : State) : Prop where
  cfg : t.cfg = s.cfg
  requests : t.requests = s.requests
  trace : s.trace <+: t.trace
  delivered : s.delivered <+: t.delivered
  rx : t.rx <:+ s.rx
  tx : t.tx <:+ s.tx

theorem Extends.refl (s : State) : Extends s s :=
  ⟨rfl, rfl, ⟨[], List.append_nil _⟩, ⟨[], List.append_nil _⟩, List.suffix_rfl, List.suffix_rfl⟩

theorem Extends.trans (h : Extends s t) (h' : Extends t u) : Extends s u :=
  ⟨h'.cfg.trans h.cfg, h'.requests.trans h.requests, h.trace.trans h'.trace, h.delivered.trans h'.delivered,
    h'.rx.trans h.rx, h'.tx.trans h.tx⟩

theorem extends_complete (s : State) (x : Delivery) : Extends s (s.complete x) :=
  ⟨rfl, rfl, ⟨[], List.append_nil _⟩, ⟨_, rfl⟩, List.suffix_rfl, List.suffix_rfl⟩

theorem extends_write {b : List Byte} {c : Nat} (h : txWrite b s = some (c, t)) : Extends s t := by
  obtain ⟨-, room, rest, hx, -, rfl⟩ := txWrite_some h
  exact ⟨rfl, rfl, ⟨_, rfl⟩, ⟨[], List.append_nil _⟩, List.suffix_rfl, [room], hx.symm⟩

/-- A read takes the bytes it answers with off the stream, or those before a fault and the fault. -/
theorem extends_read {k : Nat} {r : ReadAnswer} (h : rxRead k s = some (r, t)) : Extends s t := by
  obtain ⟨rest, hk, rfl⟩ := rxRead_some h
  have hrx : rest <:+ s.rx := by
    obtain ⟨l, -, -, hl⟩ | ⟨l, -, -, hl⟩ := takeRead_some hk
    · exact ⟨_, hl.symm⟩
    · exact ⟨l.map RxItem.byte ++ [.fault], by simp [hl]⟩
  exact ⟨rfl, rfl, ⟨_, rfl⟩, ⟨[], List.append_nil _⟩, hrx, List.suffix_rfl⟩

theorem moves_extends (m : Moves hsOk ioOk dst s t) : Extends s t := by
  induction m with
  | refl => exact .refl _
  | write _ _ h ih => exact ih.trans (extends_write h)
  | read _ _ h ih => exact ih.trans (extends_read h)
  | complete x _ ih => exact ih.trans (extends_complete _ x)
  | setHs _ _ _ ih | setStaging _ _ ih | block _ _ ih | setSlot _ _ _ _ ih =>
    exact ⟨ih.cfg, ih.requests, ih.trace, ih.delivered, ih.rx, ih.tx⟩

theorem moves_hs (m : Moves false ioOk dst s t) : t.hs = s.hs := by
  generalize hb : false = b at m
  induction m with
  | refl => rfl
  | write _ _ h ih => obtain ⟨-, _, _, -, -, rfl⟩ := txWrite_some h; exact ih
  | read _ _ h ih => obtain ⟨_, -, rfl⟩ := rxRead_some h; exact ih
  | setHs _ h => exact absurd (hb.trans h) (by simp)
  | complete _ _ ih | setStaging _ _ ih | block _ _ ih | setSlot _ _ _ _ ih => exact ih

theorem moves_no_io (m : Moves hsOk false dst s t) : t.rx = s.rx ∧ t.tx = s.tx ∧ t.trace = s.trace := by
  generalize hb : false = b at m
  induction m with
  | refl => exact ⟨rfl, rfl, rfl⟩
  | write h | read h => exact absurd (hb.trans h) (by simp)
  | complete _ _ ih | setHs _ _ _ ih | setStaging _ _ ih | block _ _ ih | setSlot _ _ _ _ ih => exact ih

/-! ### Slots -/

theorem moves_slots_length (m : Moves hsOk ioOk dst s t) : t.slots.length = s.slots.length := by
  induction m with
  | refl => rfl
  | write _ _ h ih => obtain ⟨-, _, _, -, -, rfl⟩ := txWrite_some h; exact ih
  | read _ _ h ih => obtain ⟨_, -, rfl⟩ := rxRead_some h; exact ih
  | setSlot d f _ _ ih => rw [State.setSlot_slots, List.length_set, ih]
  | complete _ _ ih | setHs _ _ _ ih | setStaging _ _ ih | block _ _ ih => exact ih

theorem moves_other_slot {d : SlotIx} (hd : dst ≠ some d) (m : Moves hsOk ioOk dst s t) : t.slot d = s.slot d := by
  induction m with
  | refl => rfl
  | write _ _ h ih => obtain ⟨-, _, _, -, -, rfl⟩ := txWrite_some h; exact ih
  | read _ _ h ih => obtain ⟨_, -, rfl⟩ := rxRead_some h; exact ih
  | setSlot e f he _ ih =>
    have hde : d ≠ e := fun h => hd (h ▸ he)
    rw [State.slot_setSlot_other _ e d f hde, ih]
  | complete _ _ ih | setHs _ _ _ ih | setStaging _ _ ih | block _ _ ih => exact ih

theorem moves_no_dest (m : Moves hsOk ioOk none s t) : t.slots = s.slots := by
  generalize hn : (none : Option SlotIx) = dst at m
  induction m with
  | refl => rfl
  | write _ _ h ih => obtain ⟨-, _, _, -, -, rfl⟩ := txWrite_some h; exact ih
  | read _ _ h ih => obtain ⟨_, -, rfl⟩ := rxRead_some h; exact ih
  | setSlot _ _ he => exact absurd (hn.trans he) (by simp)
  | complete _ _ ih | setHs _ _ _ ih | setStaging _ _ ih | block _ _ ih => exact ih

/-! ### Instructions -/

theorem moves_of_exec {i : Instr} (h : exec i s = .next t) : Moves i.usesHandshake i.usesTransport i.dest? s t := by
  obtain ⟨t', ht', m⟩ := exec_moves i s
  cases h.symm.trans ht'
  exact m

/-- Settles O51. -/
theorem onlyTheDestinationSlotChanges : Obligations.OnlyTheDestinationSlotChanges := by
  intro i s t h
  have m := moves_of_exec h
  exact ⟨fun d hd => State.byte?_congr (moves_other_slot hd m), moves_slots_length m, fun hn => moves_no_dest (hn ▸ m)⟩

/-- Settles O52. -/
theorem registersAndStreamsFrame : Obligations.RegistersAndStreamsFrame := by
  intro i s t h
  have m := moves_of_exec h
  have e := moves_extends m
  exact ⟨e.cfg, e.requests, e.trace, e.delivered, e.rx, e.tx, fun hh => moves_hs (hh ▸ m), fun hio => moves_no_io (hio ▸ m)⟩

/-! ### Steps -/

/-- Settles O8: a resumed operation leaves the host's requests, as every operation does. -/
theorem stepTakesRequestsOnlyWhenIdle : Obligations.StepTakesRequestsOnlyWhenIdle :=
  fun s => ⟨fun hp => ⟨_, step_resume hp, rfl, (moves_extends (resumePhase_moves s.phase s)).requests⟩, step_wait⟩

theorem statusLatched_complete (s : State) (x : Delivery) : (s.complete x).StatusLatched := by
  intro y hy
  have hxy : x = y := by simpa using hy
  rw [← hxy, State.complete_status]

/-- Only `complete` writes `STATUS` or delivers an outcome, and it does both. -/
theorem moves_statusLatched (m : Moves hsOk ioOk dst s t) (hs : s.StatusLatched) : t.StatusLatched := by
  induction m with
  | refl => exact hs
  | write _ _ h ih => obtain ⟨-, _, _, -, -, rfl⟩ := txWrite_some h; exact ih
  | read _ _ h ih => obtain ⟨_, -, rfl⟩ := rxRead_some h; exact ih
  | complete x => exact statusLatched_complete _ x
  | setHs _ _ _ ih | setStaging _ _ ih | block _ _ ih | setSlot _ _ _ _ ih => exact ih

/-- A rejected request that answers a next state raises `IllegalOp` (R73). -/
theorem rejectRequest_next {e : Reject} (h : rejectRequest e s = .next t) : t = s.complete (.error .illegalOp) := by
  cases e with
  | unusedCode | slotOutOfRange => cases h; rfl
  | notAPair | strayByte => cases h

/-- Settles O56. -/
theorem stepKeepsStatusLatched : Obligations.StepKeepsStatusLatched := by
  intro s t hs h
  obtain ⟨-, -, he⟩ | ⟨-, he⟩ | ⟨r, rest, i, -, -, -, he⟩ | ⟨r, rest, e, -, -, -, he⟩ := step_cases s
  · cases he.symm.trans h; exact hs
  · cases he.symm.trans h; exact moves_statusLatched (resumePhase_moves s.phase s) hs
  · exact moves_statusLatched (moves_of_exec (he.symm.trans h)) hs
  · rw [rejectRequest_next (he.symm.trans h)]; exact statusLatched_complete _ _

end Sys2Proof.Proofs
end

section
/-!
The frame format and the parser (R60 to R64, R99, R120 to R126): a consistent frame is an encoded one, its checksum does not wrap,
and the parser's tests one by one. -/
namespace Sys2Proof.Proofs

open Machine

variable {c : Config} {f raw : Frame}

theorem length_of_frameOk (hc : c.Wf) (hf : frameOk c f = true) : 4 ≤ f.length ∧ f.length ≤ 255 := by
  obtain ⟨hmin, hmax, -, -⟩ := (frameOk_iff c f).1 hf
  exact ⟨hc.minFrame ▸ hmin, hmax.trans hc.lengthByte⟩

/-- Fewer than 258 bytes cannot sum to 65536. -/
theorem sum16_toNat_of_short {l : List Byte} (h : l.length ≤ 253) :
    (sum16 l).toNat = (l.map BitVec.toNat).sum ∧ (sum16 l).toNat ≤ 64515 := by
  have hle := sum_toNat_le l
  rw [sum16_toNat, Nat.mod_eq_of_lt (by omega)]
  exact ⟨rfl, by omega⟩

/-- Settles O14: the checksum covers at most 253 bytes of at most 255 each. -/
theorem checksumOfHeldFrameNeverWraps : Obligations.ChecksumOfHeldFrameNeverWraps := by
  intro c f hc hf
  obtain ⟨-, -, -, hsum⟩ := (frameOk_iff c f).1 hf
  have hlen : (f.take (f.length - 2)).length ≤ 253 := by
    have := length_of_frameOk hc hf
    simp only [List.length_take]
    omega
  rw [hsum, summedBytes, slice_zero]
  exact sum16_toNat_of_short hlen

/-- A consistent frame is the encoding of its own command and parameters: its length byte is `4 + len(P)` and its last two
bytes are the checksum's. -/
theorem eq_encodeFrame_of_frameOk (hc : c.Wf) (hf : frameOk c f = true) : f = encodeFrame (byteAt f 1) (paramsOf f) := by
  obtain ⟨-, -, hfirst, hsum⟩ := (frameOk_iff c f).1 hf
  obtain ⟨h4, h255⟩ := length_of_frameOk hc hf
  obtain ⟨hparts, hplen⟩ := frame_parts h4
  have hlenByte : BitVec.ofNat 8 (4 + (paramsOf f).length) = byteAt f 0 := by
    apply BitVec.eq_of_toNat_eq
    rw [BitVec.toNat_ofNat, hfirst, hplen]
    omega
  calc f = withChecksum (summedBytes f) := (withChecksum_summedBytes (by omega) hsum).symm
    _ = encodeFrame (byteAt f 1) (paramsOf f) := by rw [hparts, encodeFrame, hlenByte]; rfl

theorem length_paramsOf_le (hc : c.Wf) (hf : frameOk c f = true) : (paramsOf f).length ≤ c.maxParams := by
  obtain ⟨-, hmax, -, -⟩ := (frameOk_iff c f).1 hf
  obtain ⟨h4, -⟩ := length_of_frameOk hc hf
  obtain ⟨-, hplen⟩ := frame_parts h4
  have hid := hc.identity
  have hmin := hc.minFrame
  omega

/-- Settles O15: what the parser accepts are consistent frames, and those are the encoder's. -/
theorem parserAcceptsExactlyEncodedFrames : Obligations.ParserAcceptsExactlyEncodedFrames := by
  intro c raw f hc
  rw [parse_ok_iff]
  constructor
  · rintro ⟨hf, hok, hcmd⟩
    exact ⟨hf, byteAt raw 1, paramsOf raw, length_paramsOf_le hc hok, eq_encodeFrame_of_frameOk hc hok, hcmd⟩
  · rintro ⟨hf, cmd, p, hp, rfl, hcmd⟩
    exact ⟨hf, frameOk_encodeFrame hc cmd hp, by rwa [byteAt_encodeFrame_one]⟩

/-! ### The parser's tests, in order (R125) -/

theorem parse_tooLong (h : c.maxFrame < raw.length) : parse c raw = .error .frameTooLong := by
  simp [parse, h]

theorem parse_lengthMismatch (hmax : raw.length ≤ c.maxFrame)
    (h : raw.length < c.minFrame ∨ (byteAt raw 0).toNat ≠ raw.length) : parse c raw = .error .lengthMismatch := by
  rw [parse, if_neg (Nat.not_lt.2 hmax)]
  by_cases hmin : raw.length < c.minFrame
  · rw [if_pos hmin]
  · rw [if_neg hmin, if_pos (h.resolve_left hmin)]

theorem parse_checksumMismatch (hmax : raw.length ≤ c.maxFrame) (hmin : c.minFrame ≤ raw.length)
    (hfirst : (byteAt raw 0).toNat = raw.length) (h : storedChecksum raw ≠ sum16 (summedBytes raw)) :
    parse c raw = .error .checksumMismatch := by
  rw [parse, if_neg (Nat.not_lt.2 hmax), if_neg (Nat.not_lt.2 hmin), if_neg (not_not.2 hfirst), if_pos h]

theorem parse_invalidCommand (hok : frameOk c raw = true) (hcheck : c.parseCheckCommand = true)
    (hcmd : byteAt raw 1 ∉ c.cmdset) : parse c raw = .error .invalidCommand := by
  obtain ⟨hmin, hmax, hfirst, hsum⟩ := (frameOk_iff c raw).1 hok
  have hout : inCmdset c (byteAt raw 1) = false := by simpa using mt (inCmdset_iff c _).1 hcmd
  rw [parse, if_neg (Nat.not_lt.2 hmax), if_neg (Nat.not_lt.2 hmin), if_neg (not_not.2 hfirst), if_neg (not_not.2 hsum),
    hcheck, hout]
  rfl

/-! ### A changed byte -/

theorem byteAt_set_self {i : Nat} (b : Byte) (hi : i < f.length) : byteAt (f.set i b) i = b := by
  simp [byteAt, hi]

theorem byteAt_set_other {i j : Nat} (b : Byte) (hij : i ≠ j) : byteAt (f.set i b) j = byteAt f j := by
  simp [byteAt, List.getD_eq_getElem?_getD, List.getElem?_set_ne hij]

/-- Changing one byte moves the sum by the difference of the two. -/
theorem sum16_set {l : List Byte} {i : Nat} (b : Byte) (hi : i < l.length) :
    sum16 (l.set i b) + (l[i].zeroExtend 16) = sum16 l + b.zeroExtend 16 := by
  induction l generalizing i with
  | nil => simp at hi
  | cons a l ih =>
    cases i with
    | zero => simp only [List.set_cons_zero, sum16_cons, List.getElem_cons_zero]; ac_rfl
    | succ i =>
      have hl := ih (i := i) (by simpa using hi)
      simp only [List.set_cons_succ, sum16_cons, List.getElem_cons_succ, BitVec.add_assoc] at hl ⊢
      rw [hl]

/-- The sum tells two sequences apart that differ in one byte. -/
theorem sum16_set_ne {l : List Byte} {i : Nat} {b : Byte} (hi : i < l.length) (hb : b ≠ l[i]) :
    sum16 (l.set i b) ≠ sum16 l := by
  intro h
  have hext : l[i].zeroExtend 16 = b.zeroExtend 16 := by
    have hset := sum16_set b hi
    rw [h] at hset
    exact add_left_cancel hset
  apply hb
  have hn := congrArg BitVec.toNat hext
  have hbyte := b.isLt
  have hold := l[i].isLt
  simp only [BitVec.truncate_eq_setWidth, BitVec.toNat_setWidth] at hn
  exact BitVec.eq_of_toNat_eq (by omega)

/-- A consistent frame with one byte changed fails the checksum test: the byte is one of the summed ones, or of the field. -/
theorem checksum_set_ne {i : Nat} {b : Byte} (h2 : 2 ≤ f.length) (hsum : storedChecksum f = sum16 (summedBytes f))
    (hi : i < f.length) (hb : b ≠ byteAt f i) : storedChecksum (f.set i b) ≠ sum16 (summedBytes (f.set i b)) := by
  simp only [storedChecksum, summedBytes, slice_zero, List.length_set] at hsum ⊢
  rcases Nat.lt_or_ge i (f.length - 2) with hlow | hhigh
  · have hne : b ≠ (f.take (f.length - 2))[i]'(by simp; omega) := by simpa [byteAt, hi] using hb
    rw [byteAt_set_other b (by omega), byteAt_set_other b (by omega), hsum, List.take_set]
    exact (sum16_set_ne _ hne).symm
  · rw [List.take_set_of_le hhigh, ← hsum]
    intro h
    obtain ⟨hlo, hhi⟩ := le16_inj h
    obtain rfl | rfl : i = f.length - 2 ∨ i = f.length - 1 := by omega
    · exact hb (byteAt_set_self b hi ▸ hlo)
    · exact hb (byteAt_set_self b hi ▸ hhi)

/-- Settles O16: a changed length byte is no longer the count, and any other changed byte breaks the checksum. -/
theorem singleByteChangeIsCaught : Obligations.SingleByteChangeIsCaught := by
  intro c f i b hc hf hi hb
  obtain ⟨hmin, hmax, hfirst, hsum⟩ := (frameOk_iff c f).1 hf
  obtain ⟨h4, -⟩ := length_of_frameOk hc hf
  by_cases h0 : i = 0
  · subst h0
    have hcount : (byteAt (f.set 0 b) 0).toNat ≠ (f.set 0 b).length := by
      rw [byteAt_set_self b hi, List.length_set, ← hfirst]
      exact fun h => hb (BitVec.eq_of_toNat_eq h)
    exact parse_lengthMismatch (by simpa using hmax) (.inr hcount)
  · rw [if_neg h0]
    exact parse_checksumMismatch (by simpa using hmax) (by simpa using hmin)
      (by rw [byteAt_set_other b h0, hfirst, List.length_set]) (checksum_set_ne (by omega) hsum hi hb)

end Sys2Proof.Proofs
end

section
/-!
The frame instructions, operand by operand: what a missing or `Empty` slot, a bad command and too many parameters come to, and
what the encoder, the accessors and the parser come to on good operands (R33, R68, R73, R90 to R97, R110 to R125). -/
namespace Sys2Proof.Proofs

open Machine

variable {s : State} {q d : SlotIx} {f : Frame}

/-! ### Operands that are tested first -/

/-- An instruction with a source slot needs a frame in it before everything else. -/
theorem exec_eq_withFrame {i : Instr} (hi : i.source? = some q) (s : State) : ∃ k, exec i s = .next (withFrame q k s) := by
  cases i <;> cases hi <;> exact ⟨_, rfl⟩

theorem slot?_of_source? {i : Instr} (hi : i.source? = some q) : i.slot? = some q := by
  cases i <;> cases hi <;> rfl

/-- An instruction with a slot operand tests it before everything else (R171). -/
theorem exec_eq_withSlot {i : Instr} (hi : i.slot? = some d) (s : State) : ∃ k, exec i s = .next (withSlot d k s) := by
  cases hsrc : i.source? with
  | some q =>
    obtain ⟨k, hk⟩ := exec_eq_withFrame hsrc s
    cases hi.symm.trans (slot?_of_source? hsrc)
    exact ⟨_, hk⟩
  | none => cases i <;> cases hsrc <;> cases hi <;> exact ⟨_, rfl⟩

/-- Settles O28. -/
theorem missingSlotIsIllegalOp : Obligations.MissingSlotIsIllegalOp := by
  intro i s d hi hd
  obtain ⟨k, hk⟩ := exec_eq_withSlot hi s
  rw [hk, withSlot_missing hd]
  rfl

/-- Settles O27. -/
theorem emptySourceSlotIsReported : Obligations.EmptySourceSlotIsReported := by
  intro i s q hi hq hempty
  obtain ⟨k, hk⟩ := exec_eq_withFrame hi s
  rw [hk, withFrame_empty hq hempty]
  rfl

/-! ### The command names -/

/-- A command name's row is the membership test of its value (R66, R91). -/
theorem exec_commandValue {i : Instr} {v : Byte} (hv : i.commandValue? s.cfg = some v) : exec i s = .next (recognize v s) := by
  cases i <;> cases hv <;> rfl

theorem encode_commandValue {c : Config} {i : Instr} {v : Byte} (hv : i.commandValue? c = some v) : encode c i = .wire v := by
  cases i <;> cases hv <;> rfl

/-- Settles O40. -/
theorem commandNamesOnlyTestMembership : Obligations.CommandNamesOnlyTestMembership := by
  intro i s v hv
  refine ⟨encode_commandValue hv, fun hin => ?member, fun hout => ?other⟩
  case member => rw [exec_commandValue hv, recognize, withCommand_eq hin, id]
  case other => rw [exec_commandValue hv, recognize, withCommand_bad hout]; rfl

/-- Settles O6: the meanings of both names are the same function of the state. -/
theorem otherNamesHaveOneEffect : Obligations.OtherNamesHaveOneEffect := by
  intro i s
  cases i <;> rfl

/-! ### NEW and the builders -/

/-- Settles O17. -/
theorem newBuildsTheEncodedFrame : Obligations.NewBuildsTheEncodedFrame :=
  fun _ _ _ _ hd hcmd hp => exec_new_eq hd hcmd hp

/-- Settles O18: the command is tested before the parameters (R171). -/
theorem newRejectsBadOperands : Obligations.NewRejectsBadOperands := by
  intro s d cmd p hd
  constructor
  · intro hcmd
    change Host.Outcome.next (newFrame d cmd p s) = _
    rw [newFrame, withSlot_eq hd, withCommand_bad hcmd]
    rfl
  · intro hcmd hp
    change Host.Outcome.next (newFrame d cmd p s) = _
    rw [newFrame, withSlot_eq hd, withCommand_eq hcmd, withParams_long hp]
    rfl

theorem exec_versionRequest (d : SlotIx) (s : State) : exec (.versionRequest d) s = exec (.new d s.cfg.getVersion []) s :=
  otherNamesHaveOneEffect (.versionRequest d) s

theorem exec_testRequest (d : SlotIx) (s : State) :
    exec (.testRequest d) s = exec (.new d s.cfg.connection s.cfg.testParams) s :=
  otherNamesHaveOneEffect (.testRequest d) s

/-- The frames of R96 and R97 are the encodings of the builders' operands. -/
theorem encodeFrame_builders :
    encodeFrame 0x03 [] = [0x04, 0x03, 0x07, 0x00] ∧ encodeFrame 0x01 [0x05, 0x0A] = [0x06, 0x01, 0x05, 0x0A, 0x16, 0x00] := by
  decide

/-- Settles O19: each builder is a NEW whose operands the default parameters admit. -/
theorem buildersLeaveTheirFrames : Obligations.BuildersLeaveTheirFrames := by
  intro s d hd hcfg
  have hversion : s.cfg.getVersion = 0x03 := by rw [hcfg]; rfl
  have hconnection : s.cfg.connection = 0x01 := by rw [hcfg]; rfl
  have hparams : s.cfg.testParams = [0x05, 0x0A] := by rw [hcfg]; rfl
  have hmax : s.cfg.maxParams = 251 := by rw [hcfg]; rfl
  have hset : s.cfg.cmdset = Config.default.cmdset := by rw [hcfg]
  constructor
  · rw [exec_versionRequest, hversion, ← encodeFrame_builders.1]
    exact exec_new_eq hd (by rw [hset]; decide) (by simp [hmax])
  · rw [exec_testRequest, hconnection, hparams, ← encodeFrame_builders.2]
    exact exec_new_eq hd (by rw [hset]; decide) (by simp [hmax])

/-! ### The operations on a held frame -/

theorem exec_setCommand_eq {cmd : Byte} (hq : slotExists s.cfg q = true) (hf : s.slot q = some f)
    (hcmd : cmd ∈ s.cfg.cmdset) :
    exec (.setCommand q cmd) s = .next ((s.setSlot q (encodeFrame cmd (paramsOf f))).complete (.ok .none)) := by
  change Host.Outcome.next (withFrame q _ s) = _
  rw [withFrame_eq hq hf, withCommand_eq hcmd, storeFrame, finish_eq]

theorem exec_setCommand_bad {cmd : Byte} (hq : slotExists s.cfg q = true) (hf : s.slot q = some f)
    (hcmd : cmd ∉ s.cfg.cmdset) : exec (.setCommand q cmd) s = .next (s.complete (.error .invalidCommand)) := by
  change Host.Outcome.next (withFrame q _ s) = _
  rw [withFrame_eq hq hf, withCommand_bad hcmd]

/-- Settles O20. -/
theorem setCommandReencodes : Obligations.SetCommandReencodes :=
  fun _ _ _ _ hq hf => ⟨exec_setCommand_eq hq hf, exec_setCommand_bad hq hf⟩

/-- Settles O22. -/
theorem setParametersReencodes : Obligations.SetParametersReencodes := by
  intro s q p f cmd hq hf hcmd
  have hbyte : byteAt f 1 = cmd := by simp [byteAt, List.getD_eq_getElem?_getD, hcmd]
  refine ⟨fun hp => ?_, fun hp => ?_⟩
  · rw [exec_setParameters_eq hq hf hp, hbyte]
    rfl
  · change Host.Outcome.next (withFrame q _ s) = _
    rw [withFrame_eq hq hf, withParams_long hp]
    rfl

theorem exec_recomputeChecksum_eq (hq : slotExists s.cfg q = true) (hf : s.slot q = some f) :
    exec (.recomputeChecksum q) s = .next ((s.setSlot q (withChecksum (summedBytes f))).complete (.ok .none)) := by
  change Host.Outcome.next (withFrame q _ s) = _
  rw [withFrame_eq hq hf, storeFrame, finish_eq]

/-- Every byte but the last two is kept when the checksum is written again. -/
theorem getElem?_withChecksum_summedBytes {i : Nat} (hi : i + 2 < f.length) : (withChecksum (summedBytes f))[i]? = f[i]? := by
  have hlow : i < f.length - 2 := by omega
  rw [withChecksum, summedBytes, slice_zero, List.getElem?_append_left (by simp; omega), List.getElem?_take_of_lt hlow]

/-- Settles O24: the operation replaces the last two bytes, which on a consistent frame are the ones it writes. -/
theorem recomputeChecksumWritesTheSum : Obligations.RecomputeChecksumWritesTheSum := by
  intro s q f hq hf h2
  have hexec := exec_recomputeChecksum_eq hq hf
  have hslot : ((s.setSlot q (withChecksum (summedBytes f))).complete (.ok .none)).slot q
      = some (withChecksum (summedBytes f)) := State.slot_setSlot_same _ q _ (State.lt_of_slot hf)
  refine ⟨⟨_, _, hexec, hslot, ?length, ?sum, fun i hi => ?others, fun d hd => State.slot_setSlot_other _ q d _ hd⟩,
    fun hok => ?consistent⟩
  case length => rw [length_withChecksum, length_summedBytes]; omega
  case sum => rw [storedChecksum_withChecksum, sum16_toNat, summedBytes, slice_zero]
  case others =>
    rw [State.byte?_of_slot hslot, State.byte?_of_slot hf, getElem?_withChecksum_summedBytes hi]
  case consistent =>
    obtain ⟨-, -, -, hsum⟩ := (frameOk_iff _ _).1 hok
    rw [hexec, withChecksum_summedBytes h2 hsum, State.setSlot_self hf]
    rfl

/-- In a slot file of the canonical form a held frame is consistent (R22). -/
theorem frameOk_of_slot (hm : s.slots.wf s.cfg = true) (hf : s.slot q = some f) : frameOk s.cfg f = true := by
  obtain ⟨-, hall⟩ := (memory_wf_iff _ _).1 hm
  have hlt := State.lt_of_slot hf
  have hmem : s.slots[q.toNat] = some f := by simpa [State.slot, List.getElem?_eq_getElem hlt] using hf
  exact hall f (hmem ▸ List.getElem_mem hlt)

/-- Encodings of the same parameters differ in the command byte and the checksum only. -/
theorem getElem?_encodeFrame_same_params (cmd cmd' : Byte) {p : List Byte} {i : Nat} (h1 : i ≠ 1) (hi : i + 2 < 4 + p.length) :
    (encodeFrame cmd p)[i]? = (encodeFrame cmd' p)[i]? := by
  simp only [encodeFrame, withChecksum]
  rw [List.getElem?_append_left (by simp; omega),
    List.getElem?_append_left (l₁ := [BitVec.ofNat 8 (4 + p.length), cmd'] ++ p) (by simp; omega)]
  match i, h1 with
  | 0, _ => rfl
  | i + 2, _ => rfl

/-- The checksum of an encoded frame is linear in the command byte: it does not wrap (R99). -/
theorem storedChecksum_encodeFrame (cmd : Byte) {p : List Byte} (hp : p.length ≤ 251) :
    (storedChecksum (encodeFrame cmd p)).toNat = 4 + p.length + cmd.toNat + (p.map BitVec.toNat).sum := by
  obtain ⟨-, -, -, hsum⟩ := encodedFrameLayout cmd p hp
  have hcmd := cmd.isLt
  have hbytes := sum_toNat_le p
  rw [hsum, Nat.mod_eq_of_lt (by omega)]

/-- Settles O21: the held frame is the encoding of its command and parameters, and so is the new one. -/
theorem setCommandWritesThreeBytes : Obligations.SetCommandWritesThreeBytes := by
  intro s t q cmd f hs hq hf hexec
  have hok := frameOk_of_slot hs.memory hf
  have hfenc := eq_encodeFrame_of_frameOk hs.cfg hok
  have hp251 := (length_paramsOf_le hs.cfg hok).trans (maxParams_le_of_wf hs.cfg)
  by_cases hcmd : cmd ∈ s.cfg.cmdset
  · cases (exec_setCommand_eq hq hf hcmd).symm.trans hexec
    have hslot : ((s.setSlot q (encodeFrame cmd (paramsOf f))).complete (.ok .none)).slot q
        = some (encodeFrame cmd (paramsOf f)) := State.slot_setSlot_same _ q _ (State.lt_of_slot hf)
    have hlen : f.length = 4 + (paramsOf f).length := by
      conv_lhs => rw [hfenc, length_encodeFrame]
    refine ⟨_, hslot, by rw [length_encodeFrame, hlen], fun i h1 hi => ?others,
      fun _ => ⟨byteAt_encodeFrame_one _ _, ?checksum⟩⟩
    case others =>
      rw [State.byte?_of_slot hslot, State.byte?_of_slot hf,
        getElem?_encodeFrame_same_params cmd (byteAt f 1) h1 (by omega), ← hfenc]
    case checksum =>
      have hold := storedChecksum_encodeFrame (byteAt f 1) hp251
      rw [← hfenc] at hold
      rw [storedChecksum_encodeFrame cmd hp251, hold]
      omega
  · cases (exec_setCommand_bad hq hf hcmd).symm.trans hexec
    exact ⟨f, hf, rfl, fun _ _ _ => rfl, fun h => absurd h hcmd⟩

/-! ### The accessors -/

theorem exec_checksum_eq (hq : slotExists s.cfg q = true) (hf : s.slot q = some f) :
    exec (.checksum q) s = .next (s.complete (.ok (.half (storedChecksum f)))) :=
  congrArg Host.Outcome.next (withFrame_eq hq hf)

theorem paramsOf_layout (len cmd lo hi : Byte) (p : List Byte) : paramsOf ([len, cmd] ++ p ++ [lo, hi]) = p := by
  simp [paramsOf, slice]

theorem storedChecksum_layout (len cmd lo hi : Byte) (p : List Byte) :
    storedChecksum ([len, cmd] ++ p ++ [lo, hi]) = BitVec.ofNat 16 (lo.toNat + 256 * hi.toNat) := by
  have hfield : storedChecksum ([len, cmd] ++ p ++ [lo, hi]) = le16 lo hi := by
    simp [storedChecksum, byteAt]
  rw [hfield, ← le16_toNat, BitVec.ofNat_toNat, BitVec.setWidth_eq]

/-- Settles O26. -/
theorem accessorsReturnTheFields : Obligations.AccessorsReturnTheFields := by
  intro s q len cmd lo hi p hq hf
  refine ⟨exec_command_eq hq hf, ?parameters, ?checksum, exec_toBytes_eq hq hf⟩
  case parameters => rw [exec_parameters_eq hq hf, paramsOf_layout]; rfl
  case checksum => rw [exec_checksum_eq hq hf, storedChecksum_layout]; rfl

/-! ### FROM_BYTES -/

theorem exec_fromBytes_error {raw : List Byte} {k : ErrorKind} (hd : slotExists s.cfg d = true)
    (hp : parse s.cfg raw = .error k) : exec (.fromBytes d raw) s = .next (s.complete (.error k)) := by
  change Host.Outcome.next (withSlot d _ s) = _
  rw [withSlot_eq hd, storeParsed, hp]
  rfl

/-- Settles O29. -/
theorem fromBytesHoldsAValidFrame : Obligations.FromBytesHoldsAValidFrame := by
  intro s d raw hd hmin hmax hfirst hsum hcmd
  rw [← slice_zero] at hsum
  have hok := (parse_ok_iff s.cfg raw raw).2
    ⟨rfl, (frameOk_iff _ _).2 ⟨hmin, hmax, hfirst, hsum⟩, fun h => (inCmdset_iff _ _).2 (hcmd h)⟩
  exact exec_fromBytes_eq hd hok

/-- Settles O30: one error equation of the parser for each of the four tests. -/
theorem fromBytesReportsTheFirstFailure : Obligations.FromBytesReportsTheFirstFailure := by
  intro s d raw k hd hk
  refine exec_fromBytes_error hd ?_
  obtain ⟨rfl, h⟩ | ⟨rfl, hmax, h⟩ | ⟨rfl, hmin, hmax, hfirst, h⟩ | ⟨rfl, hok, hcheck, h⟩ := hk
  · exact parse_tooLong h
  · exact parse_lengthMismatch hmax h
  · rw [← slice_zero] at h
    exact parse_checksumMismatch hmax hmin hfirst h
  · exact parse_invalidCommand hok hcheck h

end Sys2Proof.Proofs
end

section
/-!
The fixed tables: the membership test of the default parameters (R66, R68), the outcome codes (R161), the reset state and the
reset event (R32, R190 to R192), and ten words of the opcode table. -/
namespace Sys2Proof.Proofs

open Machine

/-- Settles O1: each of the ten decodings is a closed computation. -/
theorem wordsFromTheTableDecode : Obligations.WordsFromTheTableDecode := by
  unfold Obligations.WordsFromTheTableDecode
  decide

/-! ### The default parameters -/

theorem default_wf : Config.default.Wf :=
  ⟨rfl, rfl, by decide, by decide, by decide, by decide, by decide, by decide⟩

/-- Membership in `CMDSET` is membership of the byte's number among the values' numbers. -/
theorem inCmdset_iff_toNat (c : Config) (b : Byte) : inCmdset c b = true ↔ b.toNat ∈ c.cmdset.map BitVec.toNat := by
  rw [inCmdset_iff, List.mem_map_of_injective fun _ _ => BitVec.eq_of_toNat_eq]

/-- Settles O12: the illegal values are the numbers below 256 that the table does not list. -/
theorem commandSetIsTheFifteenValues : Obligations.CommandSetIsTheFifteenValues := by
  have hmem (b : Byte) := inCmdset_iff_toNat Config.default b
  refine ⟨hmem, fun b => ?_, default_wf⟩
  have hb := b.isLt
  rw [← Bool.not_eq_true, hmem b]
  simp only [Config.default, List.map_cons, List.map_nil, List.mem_cons, List.not_mem_nil, or_false, BitVec.reduceToNat]
  omega

/-! ### Reset -/

theorem slot_blockReset (s : State) (d : SlotIx) : s.blockReset.slot d = none := by
  rw [State.slot, State.blockReset_slots, List.getElem?_replicate]
  split <;> rfl

/-- The reset event leaves a state that meets the invariant, whatever it finds. -/
theorem inv_blockReset {s : State} (hc : s.cfg.Wf) : s.blockReset.Inv :=
  ⟨hc, memory_wf_empty s.cfg, Nat.zero_le _, rfl⟩

/-- Settles O58: the reset event leaves the state after reset as it is. -/
theorem resetMeetsTheInvariant : Obligations.ResetMeetsTheInvariant :=
  inv_blockReset (s := State.reset) default_wf

/-- Settles O10. -/
theorem resetStateIsTheTables : Obligations.ResetStateIsTheTables :=
  ⟨slot_blockReset State.reset, rfl, rfl, rfl, rfl, rfl, rfl⟩

/-- Settles O11. -/
theorem blockResetLeavesTheTransport : Obligations.BlockResetLeavesTheTransport := fun s =>
  ⟨slot_blockReset s, rfl, rfl, rfl, rfl, rfl, rfl, rfl, rfl, rfl, rfl, fun hc n =>
    ⟨(inv_blockReset hc).loseInbound n, rfl, rfl⟩⟩

/-! ### The outcome codes -/

/-- The error kinds in the order of their codes, from 1 (R161). -/
def errorKinds : List ErrorKind :=
  [.invalidCommand, .tooManyParameters, .frameTooLong, .lengthMismatch, .checksumMismatch, .handshakeDesync,
    .transportShortWrite, .transportFault, .slotEmpty, .illegalOp]

theorem errorKinds_at_code (k : ErrorKind) : errorKinds[k.code.toNat - 1]? = some k := by
  cases k <;> rfl

theorem code_injective {k k' : ErrorKind} (h : k.code = k'.code) : k = k' :=
  Option.some.inj ((errorKinds_at_code k).symm.trans (h ▸ errorKinds_at_code k'))

/-- Settles O57. -/
theorem outcomeCodesAreTheTables : Obligations.OutcomeCodesAreTheTables :=
  ⟨fun _ => rfl, rfl, fun _ _ => code_injective⟩

end Sys2Proof.Proofs
end

section
/-!
The handshake call by call (R130 to R136, R139): what the last step of each exchange comes to on every answer of the transport,
and the exchanges and sentinel rows from these. -/
namespace Sys2Proof.Proofs

open Machine

variable {s : State} {b : Byte} {room : Nat} {tx' : List Nat} {rx' : List RxItem}

/-! ### Each last step on each answer -/

theorem rtsRead_none_byte (hrx : s.rx = .byte b :: rx') :
    rtsRead none s =
      { s with hs := if b = s.cfg.ackRts then .confirmed else .failed, rx := rx', staging := [], phase := .idle,
               status := if b = s.cfg.ackRts then 0 else 6,
               delivered := s.delivered ++ [if b = s.cfg.ackRts then .ok .none else .error .handshakeDesync],
               trace := s.trace ++ [.read 1 (.bytes [b])] } := by
  have hread := rxRead_one_byte hrx
  by_cases hb : b = s.cfg.ackRts
  · rw [rtsRead_ack hread (by rw [hb])]
    simp only [hb, if_true]
    rfl
  · rw [rtsRead_desync hread (by simpa using hb)]
    simp only [hb, if_false]
    rfl

theorem rtsRead_none_fault (hrx : s.rx = .fault :: rx') :
    rtsRead none s =
      { s with hs := .failed, rx := rx', staging := [], phase := .idle, status := 8,
               delivered := s.delivered ++ [.error .transportFault], trace := s.trace ++ [.read 1 .fault] } :=
  rtsRead_fault (rxRead_one_fault hrx)

theorem rtrWrite_none_room (htx : s.tx = room :: tx') :
    rtrWrite none s =
      { s with hs := if room = 0 then .failed else .confirmed, tx := tx', staging := [], phase := .idle,
               status := if room = 0 then 7 else 0,
               delivered := s.delivered ++ [if room = 0 then .error .transportShortWrite else .ok .none],
               trace := s.trace ++ [.write [s.cfg.ackRtr] (min room 1)] } := by
  have hwrite := txWrite_of_room [s.cfg.ackRtr] htx
  by_cases h0 : room = 0
  · rw [rtrWrite_short hwrite (by simp [h0])]
    simp only [h0, if_true]
    rfl
  · rw [rtrWrite_taken hwrite (by simp [h0])]
    simp only [h0, if_false]
    rfl

/-! ### The first steps by themselves, one equation for each answer -/

section Equations

variable {t : State}

theorem syncRtsWrite_wait (h : txWrite [s.cfg.syncRts] s = none) : syncRtsWrite s = s.block .syncRtsWrite := by
  simp only [syncRtsWrite, h]

theorem syncRtsWrite_answered {c : Nat} (h : txWrite [s.cfg.syncRts] s = some (c, t)) :
    syncRtsWrite s = (t.setHs .sentSync).block .idle := by
  simp only [syncRtsWrite, h]

theorem syncRtrRead_wait (h : rxRead 1 s = none) : syncRtrRead s = s.block .syncRtrRead := by
  simp only [syncRtrRead, h]

theorem syncRtrRead_fault (h : rxRead 1 s = some (.fault, t)) :
    syncRtrRead s = (t.setHs .failed).complete (.error .transportFault) := by
  simp only [syncRtrRead, h, raise_eq]

theorem syncRtrRead_desync {r : List Byte} (h : rxRead 1 s = some (.bytes r, t)) (hr : r ≠ [t.cfg.syncRtr]) :
    syncRtrRead s = (t.setHs .failed).complete (.error .handshakeDesync) := by
  simp only [syncRtrRead, h, hr, if_false, raise_eq]

theorem syncRtrRead_sync {r : List Byte} (h : rxRead 1 s = some (.bytes r, t)) (hr : r = [t.cfg.syncRtr]) :
    syncRtrRead s = t.block .idle := by
  simp only [syncRtrRead, h, hr, if_true]

end Equations

/-! ### The exchanges up to their last step -/

theorem exec_rts_written (htx : s.tx = room :: tx') :
    exec .rts s = .next (rtsRead none (State.setHs
      { s with tx := tx', trace := s.trace ++ [.write [s.cfg.syncRts] (min room 1)] } .sentSync)) := by
  have h := rtsWrite_answered (s := s.setHs .idle) (n := none) (txWrite_of_room (s := s.setHs .idle) _ htx)
  exact congrArg Host.Outcome.next h

theorem exec_rtr_synced (hrx : s.rx = .byte s.cfg.syncRtr :: rx') :
    exec .rtr s = .next (rtrWrite none (State.setHs
      { s with rx := rx', trace := s.trace ++ [.read 1 (.bytes [s.cfg.syncRtr])] } .idle)) :=
  congrArg Host.Outcome.next (rtrRead_sync (s := s.setHs .idle) (n := none) (rxRead_one_byte hrx) rfl)

/-- Settles O31. -/
theorem rtsExchange : Obligations.RtsExchange := by
  intro s room tx' rx' htx
  refine ⟨fun b hrx => ?byte, fun hrx => ?fault⟩
  case byte =>
    rw [exec_rts_written htx, rtsRead_none_byte (b := b) (rx' := rx')]
    · simp only [State.setHs_trace, List.append_assoc]; rfl
    · exact hrx
  case fault =>
    rw [exec_rts_written htx, rtsRead_none_fault (rx' := rx')]
    · simp
    · exact hrx

/-- Settles O32. -/
theorem rtrExchange : Obligations.RtrExchange := by
  intro s rx'
  refine ⟨fun b hrx hb => exec_rtr_desync hrx hb, fun hrx => ?fault, fun room tx' hrx htx => ?synced⟩
  case fault => exact congrArg Host.Outcome.next (rtrRead_fault (s := s.setHs .idle) (n := none) (rxRead_one_fault hrx))
  case synced =>
    rw [exec_rtr_synced hrx, rtrWrite_none_room (room := room) (tx' := tx')]
    · simp
    · exact htx

/-- Settles O34: each wait is the wait of the call that is not answered. -/
theorem handshakeWaitsWhereThePseudocodeStands : Obligations.HandshakeWaitsWhereThePseudocodeStands := by
  intro s
  refine ⟨fun htx => ?rtsWrite, fun room tx' htx hrx => ?rtsRead, fun hrx => ?rtrRead, fun rx' hrx htx => ?rtrWrite⟩
  case rtsWrite => exact congrArg Host.Outcome.next (rtsWrite_wait (s := s.setHs .idle) ((txWrite_none_iff _).2 htx))
  case rtsRead =>
    rw [exec_rts_written htx, rtsRead_wait]
    · rfl
    · exact rxRead_silent hrx Nat.one_pos
  case rtrRead =>
    exact congrArg Host.Outcome.next (rtrRead_wait (s := s.setHs .idle) (rxRead_silent hrx Nat.one_pos))
  case rtrWrite =>
    rw [exec_rtr_synced hrx, rtrWrite_wait]
    · rfl
    · exact (txWrite_none_iff _).2 htx

/-- Settles O39: a sentinel row is one step from the handshake state its edge starts in. -/
theorem sentinelStepsFollowTheEdges : Obligations.SentinelStepsFollowTheEdges := by
  intro s
  refine ⟨fun room tx' htx => ?room, fun b rx' hrx => ?byte, fun rx' hrx => ?fault, fun htx => ?noRoom, fun hrx => ?silent⟩
  case room =>
    have hfirst := syncRtsWrite_answered (s := s.setHs .idle) (txWrite_of_room (s := s.setHs .idle) _ htx)
    exact ⟨congrArg Host.Outcome.next hfirst, congrArg Host.Outcome.next (rtrWrite_none_room (s := s.setHs .idle) htx)⟩
  case byte =>
    have hread := rxRead_one_byte (s := s.setHs .idle) hrx
    refine ⟨congrArg Host.Outcome.next (rtsRead_none_byte (s := s.setHs .sentSync) hrx), fun hb => ?_, fun hb => ?_⟩
    · exact congrArg Host.Outcome.next (syncRtrRead_sync hread (by rw [hb]; rfl))
    · exact congrArg Host.Outcome.next (syncRtrRead_desync hread (by simpa using hb))
  case fault =>
    exact ⟨congrArg Host.Outcome.next (rtsRead_none_fault (s := s.setHs .sentSync) hrx),
      congrArg Host.Outcome.next (syncRtrRead_fault (rxRead_one_fault (s := s.setHs .idle) hrx))⟩
  case noRoom =>
    have hwait (b : Byte) : txWrite [b] (s.setHs .idle) = none := (txWrite_none_iff _).2 htx
    exact ⟨congrArg Host.Outcome.next (syncRtsWrite_wait (hwait _)), congrArg Host.Outcome.next (rtrWrite_wait (hwait _))⟩
  case silent =>
    have hwait (h : Handshake) : rxRead 1 (s.setHs h) = none := rxRead_silent hrx Nat.one_pos
    exact ⟨congrArg Host.Outcome.next (rtsRead_wait (hwait _)), congrArg Host.Outcome.next (syncRtrRead_wait (hwait _))⟩

/-! ### How an exchange ends -/

theorem code_error_ne_zero (k : ErrorKind) : (Delivery.error k).code ≠ 0 := by
  cases k <;> decide

/-- What the transport can answer to a read of one byte, `e` being the byte that the exchange expects. -/
theorem rxRead_one_cases (e : Config → Byte) (s : State) :
    rxRead 1 s = none ∨ (∃ t, rxRead 1 s = some (.fault, t))
    ∨ (∃ r t, rxRead 1 s = some (.bytes r, t) ∧ r ≠ [e t.cfg]) ∨ (∃ t, rxRead 1 s = some (.bytes [e t.cfg], t)) := by
  cases h : rxRead 1 s with
  | none => exact .inl rfl
  | some p =>
    obtain ⟨_ | r, t⟩ := p
    · rename_i r
      by_cases hr : r = [e t.cfg]
      · exact .inr (.inr (.inr ⟨t, by rw [hr]⟩))
      · exact .inr (.inr (.inl ⟨r, t, rfl, hr⟩))
    · exact .inr (.inl ⟨t, rfl⟩)

/-- What the transport can do about a write: not answer it yet, or take a count. -/
theorem txWrite_cases (b : List Byte) (s : State) :
    txWrite b s = none ∨ (∃ c t, txWrite b s = some (c, t)) := by
  cases h : txWrite b s with
  | none => exact .inl rfl
  | some p => exact .inr ⟨p.1, p.2, rfl⟩

/-- R136's agreement, for an exchange that may still wait. -/
def HandshakeAgrees (t : State) : Prop :=
  t.phase = .idle → (t.status = 0 ∧ t.hs = .confirmed) ∨ (t.status ≠ 0 ∧ t.hs = .failed)

theorem handshakeAgrees_fail (s : State) (k : ErrorKind) : HandshakeAgrees ((s.setHs .failed).complete (.error k)) :=
  fun _ => .inr ⟨code_error_ne_zero k, rfl⟩

theorem handshakeAgrees_confirm (s : State) : HandshakeAgrees ((s.setHs .confirmed).complete (.ok .none)) :=
  fun _ => .inl ⟨rfl, rfl⟩

theorem handshakeAgrees_block (s : State) {p : Phase} (hp : p ≠ .idle) : HandshakeAgrees (s.block p) :=
  fun h => absurd h hp

theorem handshakeAgrees_rtsRead (s : State) : HandshakeAgrees (rtsRead none s) := by
  obtain h | ⟨t, h⟩ | ⟨r, t, h, hr⟩ | ⟨t, h⟩ := rxRead_one_cases Config.ackRts s
  · rw [rtsRead_wait h]; exact handshakeAgrees_block _ (by simp)
  · rw [rtsRead_fault h]; exact handshakeAgrees_fail _ _
  · rw [rtsRead_desync h hr]; exact handshakeAgrees_fail _ _
  · rw [rtsRead_ack h rfl]; exact handshakeAgrees_confirm _

theorem handshakeAgrees_rtsWrite (s : State) : HandshakeAgrees (rtsWrite none s) := by
  obtain h | ⟨c, t, h⟩ := txWrite_cases [s.cfg.syncRts] s
  · rw [rtsWrite_wait h]; exact handshakeAgrees_block _ (by simp)
  · rw [rtsWrite_answered h]; exact handshakeAgrees_rtsRead _

theorem handshakeAgrees_rtrWrite (s : State) : HandshakeAgrees (rtrWrite none s) := by
  obtain h | ⟨c, t, h⟩ := txWrite_cases [s.cfg.ackRtr] s
  · rw [rtrWrite_wait h]; exact handshakeAgrees_block _ (by simp)
  · by_cases hc : c < 1
    · rw [rtrWrite_short h hc]; exact handshakeAgrees_fail _ _
    · rw [rtrWrite_taken h hc]; exact handshakeAgrees_confirm _

theorem handshakeAgrees_rtrRead (s : State) : HandshakeAgrees (rtrRead none s) := by
  obtain h | ⟨t, h⟩ | ⟨r, t, h, hr⟩ | ⟨t, h⟩ := rxRead_one_cases Config.syncRtr s
  · rw [rtrRead_wait h]; exact handshakeAgrees_block _ (by simp)
  · rw [rtrRead_fault h]; exact handshakeAgrees_fail _ _
  · rw [rtrRead_desync h hr]; exact handshakeAgrees_fail _ _
  · rw [rtrRead_sync h rfl]; exact handshakeAgrees_rtrWrite _

/-- Settles O35. -/
theorem handshakeOutcomeAgreesWithState : Obligations.HandshakeOutcomeAgreesWithState := by
  intro i s t hi hexec hidle
  have hagrees : HandshakeAgrees t := by
    simp only [List.mem_cons, List.not_mem_nil, or_false] at hi
    obtain rfl | rfl | rfl | rfl := hi <;> cases hexec
    · exact handshakeAgrees_rtsWrite _
    · exact handshakeAgrees_rtrRead _
    · exact handshakeAgrees_rtsRead _
    · exact handshakeAgrees_rtrWrite _
  obtain ⟨hstatus, hhs⟩ | ⟨hstatus, hhs⟩ := hagrees hidle
  · simp [hstatus, hhs]
  · exact ⟨by simpa [hhs] using hstatus, by simpa [hhs] using hstatus⟩

end Sys2Proof.Proofs
end

section
/-!
The transfers (R150 to R155): TX_FRAME and RX_FRAME on each answer of the transport, and SEND_FRAME and RECV_FRAME as the exchange
and then the transfer. -/
namespace Sys2Proof.Proofs

open Machine

variable {s : State} {q d : SlotIx} {f : Frame} {b : Byte} {l : List Byte} {rx' : List RxItem}

/-! ### TX_FRAME -/

theorem txFrame_room {room : Nat} {tx' : List Nat} (hq : slotExists s.cfg q = true) (hf : s.slot q = some f)
    (htx : s.tx = room :: tx') :
    txFrame q s =
      { s with tx := tx', staging := [], phase := .idle, status := if room < f.length then 7 else 0,
               delivered := s.delivered ++ [if room < f.length then .error .transportShortWrite else .ok .none],
               trace := s.trace ++ [.write f (min room f.length)] } := by
  have hwrite := txWrite_of_room f htx
  by_cases hroom : room < f.length
  · rw [txFrame_short hq hf hwrite (by omega)]
    simp only [hroom, if_true]
    rfl
  · rw [txFrame_whole hq hf hwrite (by omega)]
    simp only [hroom, if_false]
    rfl

/-- Settles O41. -/
theorem txFrameWritesTheHeldBytes : Obligations.TxFrameWritesTheHeldBytes := by
  intro s q f hq hf
  exact ⟨fun _ _ htx => congrArg Host.Outcome.next (txFrame_room hq hf htx),
    fun htx => congrArg Host.Outcome.next (txFrame_wait hq hf ((txWrite_none_iff f).2 htx))⟩

/-- Settles O42: with `OK` the count was the length. -/
theorem txFrameSendsOffsetZeroFirst : Obligations.TxFrameSendsOffsetZeroFirst := by
  intro s t q f hq hf hexec hidle hstatus
  obtain ⟨hroom, hwait⟩ := txFrameWritesTheHeldBytes s q f hq hf
  cases htx : s.tx with
  | nil =>
    cases (hwait htx).symm.trans hexec
    cases hidle
  | cons room tx' =>
    cases (hroom room tx' htx).symm.trans hexec
    have hwhole : ¬ room < f.length := fun hlt => by simp [hlt] at hstatus
    simp [sentBytes_append, sentBytes, Nat.le_of_not_lt hwhole]

/-! ### RX_FRAME -/

theorem exec_rxFrame_eq (hd : slotExists s.cfg d = true) : exec (.rxFrame d) s = .next (rxLength d s) :=
  congrArg Host.Outcome.next (withSlot_eq hd)

/-- The state after RX_FRAME's first read, the length byte staged. -/
def lengthRead (s : State) (b : Byte) (rest : List RxItem) : State :=
  State.setStaging { s with rx := rest, trace := s.trace ++ [.read 1 (.bytes [b])] } [b]

/-- The state after RX_FRAME's reads of the bytes that `b` announces, all of them staged. -/
def frameRead (s : State) (b : Byte) (l : List Byte) (rest : List RxItem) : State :=
  State.setStaging
    { s with rx := rest, trace := s.trace ++ ([.read 1 (.bytes [b])] ++
               if 2 ≤ b.toNat then [.read (b.toNat - 1) (.bytes l)] else []) } (b :: l)

theorem rxLength_byte (hrx : s.rx = .byte b :: rx') : rxLength d s = rxRest d (lengthRead s b rx') :=
  rxLength_bytes (rxRead_one_byte hrx)

/-- RX_FRAME of announced bytes that have all come hands them to the parser. -/
theorem rxLength_announced (hrx : s.rx = (b :: l).map RxItem.byte ++ rx') (hl : l.length = b.toNat - 1) :
    rxLength d s = storeParsed d (b :: l) (frameRead s b l rx') := by
  rw [rxLength_byte (rx' := l.map RxItem.byte ++ rx') hrx]
  by_cases h2 : 2 ≤ b.toNat
  · have hread := rxRead_of_take (s := lengthRead s b (l.map RxItem.byte ++ rx')) (takeRead_bytes l rx')
    rw [hl] at hread
    rw [rxRest_bytes (s := lengthRead s b (l.map RxItem.byte ++ rx')) h2 hread]
    simp only [frameRead, h2, if_true, ← List.append_assoc]
    rfl
  · have hnil : l = [] := List.eq_nil_of_length_eq_zero (by omega)
    subst hnil
    rw [rxRest_none (s := lengthRead s b _) h2]
    simp only [frameRead, h2, if_false, List.append_nil]
    rfl

theorem storeParsed_ok {raw : List Byte} (h : parse s.cfg raw = .ok raw) :
    storeParsed d raw s = (s.setSlot d raw).complete (.ok .none) := by
  rw [storeParsed, h]
  rfl

theorem storeParsed_error {raw : List Byte} {k : ErrorKind} (h : parse s.cfg raw = .error k) :
    storeParsed d raw s = s.complete (.error k) := by
  rw [storeParsed, h]
  rfl

theorem parse_received {c : Config} {raw : Frame} (hok : frameOk c raw = true)
    (hcmd : c.parseCheckCommand = true → byteAt raw 1 ∈ c.cmdset) : parse c raw = .ok raw :=
  (parse_ok_iff c raw raw).2 ⟨rfl, hok, fun h => (inCmdset_iff _ _).2 (hcmd h)⟩

/-- RX_FRAME of a consistent frame: its length byte announces exactly its bytes. -/
theorem rxLength_valid (hc : s.cfg.Wf) (hrx : s.rx = (b :: l).map RxItem.byte ++ rx')
    (hok : frameOk s.cfg (b :: l) = true) (hcmd : s.cfg.parseCheckCommand = true → byteAt (b :: l) 1 ∈ s.cfg.cmdset) :
    rxLength d s =
      { s with slots := s.slots.set d.toNat (some (b :: l)), rx := rx', status := 0, staging := [], phase := .idle,
               delivered := s.delivered ++ [.ok .none],
               trace := s.trace ++ [.read 1 (.bytes [b]), .read (b.toNat - 1) (.bytes l)] } := by
  obtain ⟨h4, -⟩ := length_of_frameOk hc hok
  obtain ⟨-, -, hfirst, -⟩ := (frameOk_iff _ _).1 hok
  have hlen : b.toNat = l.length + 1 := hfirst
  have h2 : 2 ≤ b.toNat := by simp only [List.length_cons] at h4; omega
  rw [rxLength_announced hrx (by omega), storeParsed_ok (s := frameRead s b l rx') (parse_received hok hcmd)]
  simp only [frameRead, h2, if_true]
  rfl

/-- Settles O43. -/
theorem rxFrameHoldsTheReceivedFrame : Obligations.RxFrameHoldsTheReceivedFrame := by
  intro s d b l rx' hd hc hrx hok hcmd
  rw [exec_rxFrame_eq hd, rxLength_valid hc hrx hok hcmd]

/-- Settles O44. -/
theorem rxFrameReportsTheParsersError : Obligations.RxFrameReportsTheParsersError := by
  intro s d b l rx' k hd hrx hl hparse
  rw [exec_rxFrame_eq hd, rxLength_announced hrx hl, storeParsed_error (s := frameRead s b l rx') hparse]
  rfl

/-- Settles O45. -/
theorem rxFrameFaultsAndWaits : Obligations.RxFrameFaultsAndWaits := by
  intro s d hd
  simp only [exec_rxFrame_eq hd, Host.Outcome.next.injEq]
  refine ⟨fun rx' hrx => rxLength_fault (rxRead_one_fault hrx), fun b l rx' hrx hl => ?secondFault,
    fun hrx => rxLength_wait (rxRead_silent hrx Nat.one_pos), fun b l hrx hl => ?secondWait⟩
  case secondFault =>
    have hread := rxRead_of_take (s := lengthRead s b (l.map RxItem.byte ++ .fault :: rx'))
      (takeRead_fault (b.toNat - 1) l rx' (by omega))
    have h2 : 2 ≤ b.toNat := by omega
    rw [rxLength_byte (rx' := l.map RxItem.byte ++ .fault :: rx') hrx, rxRest_fault (s := lengthRead s b _) h2 hread]
    simp only [lengthRead, State.setStaging_trace, List.append_assoc]
    rfl
  case secondWait =>
    have hread := (rxRead_none_iff (s := lengthRead s b (l.map RxItem.byte)) _).2
      (takeRead_wait (b.toNat - 1) l (by omega))
    have h2 : 2 ≤ b.toNat := by omega
    rw [rxLength_byte hrx, rxRest_wait (s := lengthRead s b _) h2 hread]
    rfl

/-! ### The joined sequences -/

/-- RTS from its read on, alone and with TX_FRAME after it: both wait, or both have failed, or TX_FRAME follows. -/
theorem rtsRead_joined (q : SlotIx) (s : State) :
    (rtsRead none s = s.block (.rtsRead none) ∧ rtsRead (some q) s = s.block (.rtsRead (some q)))
    ∨ ((rtsRead none s).phase = .idle ∧ rtsRead (some q) s
        = if (rtsRead none s).status = 0 then txFrame q (rtsRead none s) else rtsRead none s) := by
  obtain h | ⟨t, h⟩ | ⟨r, t, h, hr⟩ | ⟨t, h⟩ := rxRead_one_cases Config.ackRts s
  · exact .inl ⟨rtsRead_wait h, rtsRead_wait h⟩
  · rw [rtsRead_fault h, rtsRead_fault h]; exact .inr ⟨rfl, rfl⟩
  · rw [rtsRead_desync h hr, rtsRead_desync h hr]; exact .inr ⟨rfl, rfl⟩
  · rw [rtsRead_ack h rfl, rtsRead_ack h rfl]; exact .inr ⟨rfl, rfl⟩

/-- RTR from its write on, alone and with RX_FRAME after it. -/
theorem rtrWrite_joined (d : SlotIx) (s : State) :
    (rtrWrite none s = s.block (.rtrWrite none) ∧ rtrWrite (some d) s = s.block (.rtrWrite (some d)))
    ∨ ((rtrWrite none s).phase = .idle ∧ rtrWrite (some d) s
        = if (rtrWrite none s).status = 0 then rxFrame d (rtrWrite none s) else rtrWrite none s) := by
  obtain h | ⟨c, t, h⟩ := txWrite_cases [s.cfg.ackRtr] s
  · exact .inl ⟨rtrWrite_wait h, rtrWrite_wait h⟩
  · by_cases hc : c < 1
    · rw [rtrWrite_short h hc, rtrWrite_short h hc]; exact .inr ⟨rfl, rfl⟩
    · rw [rtrWrite_taken h hc, rtrWrite_taken h hc]; exact .inr ⟨rfl, rfl⟩

theorem exec_sendFrame_eq (hq : slotExists s.cfg q = true) (hf : s.slot q = some f) :
    exec (.sendFrame q) s = .next (rtsWrite (some q) (s.setHs .idle)) :=
  congrArg Host.Outcome.next (withFrame_eq hq hf)

theorem exec_recvFrame_eq (hd : slotExists s.cfg d = true) :
    exec (.recvFrame d) s = .next (rtrRead (some d) (s.setHs .idle)) :=
  congrArg Host.Outcome.next (withSlot_eq hd)

/-- Settles O46: RTS waits at its write, or from its read on the two run alike by `rtsRead_joined`. -/
theorem sendFrameIsRtsThenTxFrame : Obligations.SendFrameIsRtsThenTxFrame := by
  intro s t q f hq hf hexec
  obtain rfl : rtsWrite none (s.setHs .idle) = t := Host.Outcome.next.inj hexec
  rw [exec_sendFrame_eq hq hf]
  obtain hw | ⟨c, u, hw⟩ := txWrite_cases [s.cfg.syncRts] (s.setHs .idle)
  · rw [rtsWrite_wait hw, rtsWrite_wait hw]
    exact ⟨.inr (.inl rfl), nofun, fun _ => ⟨rfl, rfl⟩, nofun⟩
  · have hdel : u.delivered = s.delivered := by obtain ⟨-, _, _, -, -, rfl⟩ := txWrite_some hw; rfl
    rw [rtsWrite_answered hw, rtsWrite_answered hw]
    obtain ⟨hn, hq'⟩ | ⟨hidle, hq'⟩ := rtsRead_joined q (u.setHs .sentSync)
    · rw [hn, hq']
      exact ⟨.inr (.inr rfl), nofun, nofun, fun _ => ⟨hdel, rfl⟩⟩
    · rw [hq']
      refine ⟨.inl hidle, fun _ => ?_, fun h => ?_, fun h => ?_⟩
      · split <;> rfl
      all_goals cases hidle.symm.trans h

/-- Settles O47: RTR waits or fails at its read, or from its write on the two run alike by `rtrWrite_joined`. -/
theorem recvFrameIsRtrThenRxFrame : Obligations.RecvFrameIsRtrThenRxFrame := by
  intro s t d hd hexec
  obtain rfl : rtrRead none (s.setHs .idle) = t := Host.Outcome.next.inj hexec
  rw [exec_recvFrame_eq hd]
  obtain h | ⟨u, h⟩ | ⟨r, u, h, hr⟩ | ⟨u, h⟩ := rxRead_one_cases Config.syncRtr (s.setHs .idle)
  · rw [rtrRead_wait h, rtrRead_wait h]
    exact ⟨.inr (.inl rfl), nofun, fun _ => ⟨rfl, rfl⟩, nofun⟩
  · rw [rtrRead_fault h, rtrRead_fault h]
    exact ⟨.inl rfl, fun _ => rfl, nofun, nofun⟩
  · rw [rtrRead_desync h hr, rtrRead_desync h hr]
    exact ⟨.inl rfl, fun _ => rfl, nofun, nofun⟩
  · have hdel : u.delivered = s.delivered := by obtain ⟨_, -, hu⟩ := rxRead_some h; rw [hu]; rfl
    rw [rtrRead_sync h rfl, rtrRead_sync h rfl]
    obtain ⟨hn, hd'⟩ | ⟨hidle, hd'⟩ := rtrWrite_joined d u
    · rw [hn, hd']
      exact ⟨.inr (.inr rfl), nofun, nofun, fun _ => ⟨hdel, rfl⟩⟩
    · rw [hd']
      refine ⟨.inl hidle, fun _ => ?_, fun h => ?_, fun h => ?_⟩
      · split <;> rfl
      all_goals cases hidle.symm.trans h

/-- Settles O48. -/
theorem joinedSequencesRunToTheEnd : Obligations.JoinedSequencesRunToTheEnd := by
  intro s d b l room1 rx' hd
  refine ⟨fun room2 tx' hf htx hroom hrx => ?send, fun tx' hc htx hroom hrx hok hcmd => ?recv⟩
  case send =>
    have hrts := rtsExchange s room1 (room2 :: tx') rx' htx
    obtain ⟨-, hjoin, -, -⟩ := sendFrameIsRtsThenTxFrame s _ d _ hd hf (hrts.1 _ hrx)
    rw [hjoin rfl]
    simp only [if_true]
    have hwhole : ¬ room2 < l.length + 1 := by omega
    have hmin : min room2 (l.length + 1) = l.length + 1 := by omega
    refine (congrArg Host.Outcome.next (txFrame_room (f := b :: l) (room := room2) (tx' := tx') ?_ ?_ ?_)).trans ?_
    · exact hd
    · exact hf
    · rfl
    · simp [hwhole, hmin]
  case recv =>
    obtain ⟨-, -, hrtr⟩ := rtrExchange s ((b :: l).map RxItem.byte ++ rx')
    obtain ⟨-, hjoin, -, -⟩ := recvFrameIsRtrThenRxFrame s _ d hd (hrtr room1 tx' hrx htx)
    have h0 : room1 ≠ 0 := by omega
    have hmin : min room1 1 = 1 := by omega
    rw [hjoin rfl]
    simp only [h0, if_false, if_true, hmin]
    refine (exec_rxFrame_eq ?_).trans (congrArg Host.Outcome.next ?_)
    · exact hd
    refine (rxLength_valid (b := b) (l := l) (rx' := rx') ?_ rfl ?_ ?_).trans ?_
    · exact hc
    · exact hok
    · exact hcmd
    · simp

end Sys2Proof.Proofs
end

section
/-!
How an operation goes on to its wait or its end (`Course`): which errors it may deliver and how many outcomes, and which frames it
may store, each store being the last thing it does (R44, R168, R177). `Moves` does not say this: it has no order. -/
namespace Sys2Proof.Proofs

open Machine

/-- The frames that an operation running in `s` may store: parsed ones, encodings that NEW or SET_COMMAND tested, the command of
a held frame with other parameters, a held frame with its checksum written again. -/
inductive Storable (s : State) : Frame → Prop where
  | parsed {raw : Frame} : parse s.cfg raw = .ok raw → Storable s raw
  | encoded {cmd : Byte} {p : List Byte} : cmd ∈ s.cfg.cmdset →
      p.length ≤ s.cfg.maxParams ∨ (∃ q f, s.slot q = some f ∧ p = paramsOf f) → Storable s (encodeFrame cmd p)
  | newParams {q : SlotIx} {f : Frame} {p : List Byte} : s.slot q = some f → p.length ≤ s.cfg.maxParams →
      Storable s (encodeFrame (byteAt f 1) p)
  | newChecksum {q : SlotIx} {f : Frame} : s.slot q = some f → Storable s (withChecksum (summedBytes f))

/-- From `s` an operation comes to `t`, where it waits or has ended, delivering at most `n` outcomes and no error but those of
`may`. A slot is written only where the operation ends with `OK`. -/
inductive Course (may : ErrorKind → Prop) : Nat → State → State → Prop where
  | stay {n : Nat} (s : State) : Course may n s s
  | block {n : Nat} {s : State} (p : Phase) : Course may n s (s.block p)
  | fail {n : Nat} {s : State} {k : ErrorKind} : may k → Course may (n + 1) s (s.complete (.error k))
  | done {n : Nat} {s : State} (r : Result) : Course may (n + 1) s (s.complete (.ok r))
  | store {n : Nat} {s : State} (d : SlotIx) {f : Frame} : Storable s f →
      Course may (n + 1) s ((s.setSlot d f).complete (.ok .none))
  | setHs {n : Nat} {s t : State} (h : Handshake) : Course may n (s.setHs h) t → Course may n s t
  | setStaging {n : Nat} {s t : State} (l : List Byte) : Course may n (s.setStaging l) t → Course may n s t
  | write {n : Nat} {s t u : State} {b : List Byte} {c : Nat} : txWrite b s = some (c, u) → Course may n u t → Course may n s t
  | read {n : Nat} {s t u : State} {k : Nat} {r : ReadAnswer} : rxRead k s = some (r, u) → Course may n u t → Course may n s t
  | andThen {n : Nat} {s t : State} : Course may n (s.complete (.ok .none)) t → Course may (n + 1) s t

section Operations

variable {may : ErrorKind → Prop} {n : Nat} {s : State} {q d : SlotIx}

theorem cfg_of_read {k : Nat} {r : ReadAnswer} {t : State} (h : rxRead k s = some (r, t)) : t.cfg = s.cfg :=
  (extends_read h).cfg

theorem cfg_of_write {b : List Byte} {c : Nat} {t : State} (h : txWrite b s = some (c, t)) : t.cfg = s.cfg :=
  (extends_write h).cfg

theorem slot_of_read {k : Nat} {r : ReadAnswer} {t : State} (h : rxRead k s = some (r, t)) : t.slot q = s.slot q := by
  obtain ⟨_, -, rfl⟩ := rxRead_some h
  rfl

theorem slot_of_write {b : List Byte} {c : Nat} {t : State} (h : txWrite b s = some (c, t)) : t.slot q = s.slot q := by
  obtain ⟨-, _, _, -, -, rfl⟩ := txWrite_some h
  rfl

theorem staging_of_read {k : Nat} {r : ReadAnswer} {t : State} (h : rxRead k s = some (r, t)) : t.staging = s.staging := by
  obtain ⟨_, -, rfl⟩ := rxRead_some h
  rfl

/-! ### The operand forms -/

theorem course_withSlot {k : State → State} (hill : slotExists s.cfg d = false → may .illegalOp)
    (hk : Course may (n + 1) s (k s)) : Course may (n + 1) s (withSlot d k s) := by
  obtain ⟨hd, e⟩ | ⟨-, e⟩ := withSlot_cases d k s <;> rw [e]
  · exact .fail (hill hd)
  · exact hk

theorem course_withFrame {k : Frame → State → State} (hill : slotExists s.cfg q = false → may .illegalOp)
    (hempty : s.slot q = none → may .slotEmpty) (hk : ∀ f, s.slot q = some f → Course may (n + 1) s (k f s)) :
    Course may (n + 1) s (withFrame q k s) := by
  obtain ⟨hq, e⟩ | ⟨-, hf, e⟩ | ⟨f, -, hf, e⟩ := withFrame_cases q k s <;> rw [e]
  · exact .fail (hill hq)
  · exact .fail (hempty hf)
  · exact hk f hf

theorem course_withCommand {cmd : Byte} {k : State → State} (hbad : cmd ∉ s.cfg.cmdset → may .invalidCommand)
    (hk : cmd ∈ s.cfg.cmdset → Course may (n + 1) s (k s)) : Course may (n + 1) s (withCommand cmd k s) := by
  by_cases hcmd : cmd ∈ s.cfg.cmdset
  · rw [withCommand_eq hcmd]; exact hk hcmd
  · rw [withCommand_bad hcmd]; exact .fail (hbad hcmd)

theorem course_withParams {p : List Byte} {k : State → State} (hlong : s.cfg.maxParams < p.length → may .tooManyParameters)
    (hk : p.length ≤ s.cfg.maxParams → Course may (n + 1) s (k s)) : Course may (n + 1) s (withParams p k s) := by
  rcases Nat.lt_or_ge s.cfg.maxParams p.length with hp | hp
  · rw [withParams_long hp]; exact .fail (hlong hp)
  · rw [withParams_eq hp]; exact hk hp

theorem course_newFrame {cmd : Byte} {p : List Byte} (hill : slotExists s.cfg d = false → may .illegalOp)
    (hbad : cmd ∉ s.cfg.cmdset → may .invalidCommand) (hlong : s.cfg.maxParams < p.length → may .tooManyParameters) :
    Course may (n + 1) s (newFrame d cmd p s) :=
  course_withSlot hill (course_withCommand hbad fun hcmd => course_withParams hlong fun hp => .store d (.encoded hcmd (.inl hp)))

theorem course_recognize {cmd : Byte} (hbad : cmd ∉ s.cfg.cmdset → may .invalidCommand) :
    Course may (n + 1) s (recognize cmd s) :=
  course_withCommand hbad fun _ => .stay s

theorem course_storeParsed {raw : List Byte} (herr : ∀ k, parse s.cfg raw = .error k → may k) :
    Course may (n + 1) s (storeParsed d raw s) := by
  obtain ⟨k, hk, e⟩ | ⟨hok, e⟩ := storeParsed_cases d raw s <;> rw [e]
  · exact .fail (herr k hk)
  · exact .store d (.parsed hok)

/-! ### The operations that use the transport -/

theorem course_txFrame (hill : slotExists s.cfg q = false → may .illegalOp) (hempty : s.slot q = none → may .slotEmpty)
    (hshort : may .transportShortWrite) : Course may (n + 1) s (txFrame q s) := by
  refine course_withFrame hill hempty fun f _ => ?_
  split
  · exact .block _
  · rename_i hw
    split
    · exact .write hw (.fail hshort)
    · exact .write hw (.done _)

/-- With one byte staged, what the parser gets is at most 255 bytes. -/
theorem course_rxRest (hfault : may .transportFault)
    (herr : ∀ raw k, (s.staging.length = 1 → raw.length ≤ 255) → parse s.cfg raw = .error k → may k) :
    Course may (n + 1) s (rxRest d s) := by
  have hL := (byteAt s.staging 0).isLt
  by_cases h2 : 2 ≤ (byteAt s.staging 0).toNat
  · cases hr : rxRead ((byteAt s.staging 0).toNat - 1) s with
    | none => rw [rxRest_wait h2 hr]; exact .block _
    | some p =>
      obtain ⟨r | _, t⟩ := p
      · rw [rxRest_bytes h2 hr]
        refine .read hr (.setStaging _ (course_storeParsed fun k hk => herr _ k (fun h1 => ?_) (cfg_of_read hr ▸ hk)))
        rw [List.length_append, staging_of_read hr, h1, rxRead_length hr]
        omega
      · rw [rxRest_fault h2 hr]; exact .read hr (.fail hfault)
  · rw [rxRest_none h2]
    exact course_storeParsed fun k hk => herr _ k (by omega) hk

theorem course_rxLength (hfault : may .transportFault)
    (herr : ∀ raw k, raw.length ≤ 255 → parse s.cfg raw = .error k → may k) : Course may (n + 1) s (rxLength d s) := by
  cases hr : rxRead 1 s with
  | none => rw [rxLength_wait hr]; exact .block _
  | some p =>
    obtain ⟨r | _, t⟩ := p
    · rw [rxLength_bytes hr]
      refine .read hr (.setStaging _ (course_rxRest hfault fun raw k h1 hk => herr raw k (h1 ?_) (cfg_of_read hr ▸ hk)))
      exact rxRead_length hr
    · rw [rxLength_fault hr]; exact .read hr (.fail hfault)

theorem course_rxFrame (hill : slotExists s.cfg d = false → may .illegalOp) (hfault : may .transportFault)
    (herr : ∀ raw k, raw.length ≤ 255 → parse s.cfg raw = .error k → may k) : Course may (n + 1) s (rxFrame d s) :=
  course_withSlot hill (course_rxLength hfault herr)

theorem course_rtsRead {next? : Option SlotIx} (hfault : may .transportFault) (hdesync : may .handshakeDesync)
    (hnext : ∀ q, next? = some q → (slotExists s.cfg q = false → may .illegalOp) ∧ (s.slot q = none → may .slotEmpty)
      ∧ may .transportShortWrite) : Course may (n + 2) s (rtsRead next? s) := by
  obtain h | ⟨t, h⟩ | ⟨r, t, h, hr⟩ | ⟨t, h⟩ := rxRead_one_cases Config.ackRts s
  · rw [rtsRead_wait h]; exact .block _
  · rw [rtsRead_fault h]; exact .read h (.setHs _ (.fail hfault))
  · rw [rtsRead_desync h hr]; exact .read h (.setHs _ (.fail hdesync))
  · rw [rtsRead_ack h rfl]
    refine .read h (.setHs .confirmed ?_)
    cases next? with
    | none => exact .done _
    | some q =>
      obtain ⟨hill, hempty, hshort⟩ := hnext q rfl
      exact .andThen (course_txFrame (fun e => hill (cfg_of_read h ▸ e)) (fun e => hempty (slot_of_read h ▸ e)) hshort)

theorem course_rtsWrite {next? : Option SlotIx} (hfault : may .transportFault) (hdesync : may .handshakeDesync)
    (hnext : ∀ q, next? = some q → (slotExists s.cfg q = false → may .illegalOp) ∧ (s.slot q = none → may .slotEmpty)
      ∧ may .transportShortWrite) : Course may (n + 2) s (rtsWrite next? s) := by
  obtain h | ⟨c, t, h⟩ := txWrite_cases [s.cfg.syncRts] s
  · rw [rtsWrite_wait h]; exact .block _
  · rw [rtsWrite_answered h]
    refine .write h (.setHs .sentSync (course_rtsRead hfault hdesync fun q hq => ?_))
    obtain ⟨hill, hempty, hshort⟩ := hnext q hq
    exact ⟨fun e => hill (cfg_of_write h ▸ e), fun e => hempty (slot_of_write h ▸ e), hshort⟩

theorem course_rtrWrite {next? : Option SlotIx} (hshort : may .transportShortWrite)
    (hnext : ∀ d, next? = some d → (slotExists s.cfg d = false → may .illegalOp) ∧ may .transportFault
      ∧ ∀ raw k, raw.length ≤ 255 → parse s.cfg raw = .error k → may k) : Course may (n + 2) s (rtrWrite next? s) := by
  obtain h | ⟨c, t, h⟩ := txWrite_cases [s.cfg.ackRtr] s
  · rw [rtrWrite_wait h]; exact .block _
  by_cases hc : c < 1
  · rw [rtrWrite_short h hc]; exact .write h (.setHs _ (.fail hshort))
  · rw [rtrWrite_taken h hc]
    refine .write h (.setHs .confirmed ?_)
    cases next? with
    | none => exact .done _
    | some d =>
      obtain ⟨hill, hfault, herr⟩ := hnext d rfl
      exact .andThen (course_rxFrame (fun e => hill (cfg_of_write h ▸ e)) hfault
        fun raw k hl e => herr raw k hl (cfg_of_write h ▸ e))

theorem course_rtrRead {next? : Option SlotIx} (hfault : may .transportFault) (hdesync : may .handshakeDesync)
    (hshort : may .transportShortWrite)
    (hnext : ∀ d, next? = some d → (slotExists s.cfg d = false → may .illegalOp) ∧ may .transportFault
      ∧ ∀ raw k, raw.length ≤ 255 → parse s.cfg raw = .error k → may k) : Course may (n + 2) s (rtrRead next? s) := by
  obtain h | ⟨t, h⟩ | ⟨r, t, h, hr⟩ | ⟨t, h⟩ := rxRead_one_cases Config.syncRtr s
  · rw [rtrRead_wait h]; exact .block _
  · rw [rtrRead_fault h]; exact .read h (.setHs _ (.fail hfault))
  · rw [rtrRead_desync h hr]; exact .read h (.setHs _ (.fail hdesync))
  · rw [rtrRead_sync h rfl]
    refine .read h (course_rtrWrite hshort fun d hd => ?_)
    obtain ⟨hill, hf, herr⟩ := hnext d hd
    exact ⟨fun e => hill (cfg_of_read h ▸ e), hf, fun raw k hl e => herr raw k hl (cfg_of_read h ▸ e)⟩

theorem course_syncRtsWrite : Course may n s (syncRtsWrite s) := by
  obtain h | ⟨c, t, h⟩ := txWrite_cases [s.cfg.syncRts] s
  · rw [syncRtsWrite_wait h]; exact .block _
  · rw [syncRtsWrite_answered h]; exact .write h (.setHs _ (.block _))

theorem course_syncRtrRead (hfault : may .transportFault) (hdesync : may .handshakeDesync) :
    Course may (n + 1) s (syncRtrRead s) := by
  obtain h | ⟨t, h⟩ | ⟨r, t, h, hr⟩ | ⟨t, h⟩ := rxRead_one_cases Config.syncRtr s
  · rw [syncRtrRead_wait h]; exact .block _
  · rw [syncRtrRead_fault h]; exact .read h (.setHs _ (.fail hfault))
  · rw [syncRtrRead_desync h hr]; exact .read h (.setHs _ (.fail hdesync))
  · rw [syncRtrRead_sync h rfl]; exact .read h (.block _)

end Operations

/-! ### Instructions and steps -/

/-- Under the hypotheses of the outcome matrix, `k` is in the row of `i` (R177). -/
def MayEnd (i : Instr) (c : Config) (k : ErrorKind) : Prop :=
  i.wellFormed c = true → c.maxFrame = 255 → c.Wf → k ∈ i.errors c

theorem mayEnd_of_mem {i : Instr} {c : Config} {k : ErrorKind} (h : k ∈ i.errors c := by simp [Instr.errors]) :
    MayEnd i c k :=
  fun _ _ _ => h

/-- An instruction of the block has no missing slot. -/
theorem mayEnd_of_missing {i : Instr} {c : Config} {k : ErrorKind} {d : SlotIx} (hi : i.slot? = some d)
    (hd : slotExists c d = false) : MayEnd i c k := by
  intro hw
  simp [Instr.wellFormed, hi, hd] at hw

theorem mem_receiveErrors_of_parse {c : Config} {raw : Frame} {k : ErrorKind} (h : parse c raw = .error k)
    (hlen : raw.length ≤ c.maxFrame) : k ∈ receiveErrors c := by
  obtain ⟨-, hlong⟩ | rfl | rfl | ⟨rfl, hcheck⟩ := parse_error_cases h
  · omega
  · simp [receiveErrors]
  · simp [receiveErrors]
  · simp [receiveErrors, hcheck]

theorem mem_errors_of_parse {c : Config} {raw : Frame} {k : ErrorKind} (h : parse c raw = .error k) :
    k ∈ .frameTooLong :: receiveErrors c := by
  by_cases hlen : raw.length ≤ c.maxFrame
  · exact List.mem_cons_of_mem _ (mem_receiveErrors_of_parse h hlen)
  · cases h.symm.trans (parse_tooLong (Nat.lt_of_not_le hlen))
    exact List.mem_cons_self

/-- A length byte announces at most `MAX_FRAME` bytes, which is 255: `FrameTooLong` has no place in RX_FRAME's row. -/
theorem mayEnd_of_received {i : Instr} {c : Config} {raw : Frame} {k : ErrorKind}
    (hi : ∀ k ∈ receiveErrors c, k ∈ i.errors c) (hlen : raw.length ≤ 255) (h : parse c raw = .error k) : MayEnd i c k :=
  fun _ hmax _ => hi k (mem_receiveErrors_of_parse h (hmax ▸ hlen))

/-- Every instruction has a course whose errors are those of its row. -/
theorem exec_course {i : Instr} {s t : State} (h : exec i s = .next t) : Course (MayEnd i s.cfg) 2 s t := by
  cases i with
  | new d cmd p =>
    cases h
    exact course_newFrame (mayEnd_of_missing rfl) (fun _ => mayEnd_of_mem)
      fun _ => mayEnd_of_mem
  | versionRequest d =>
    cases h
    exact course_newFrame (mayEnd_of_missing rfl) (fun h _ _ hc => absurd hc.getVersion h) fun h => absurd h (by simp)
  | testRequest d =>
    cases h
    exact course_newFrame (mayEnd_of_missing rfl) (fun h _ _ hc => absurd hc.connection h)
      fun h _ _ hc => absurd hc.testParams (Nat.not_le.2 h)
  | fromBytes d raw =>
    cases h
    exact course_withSlot (mayEnd_of_missing rfl) (course_storeParsed fun k hk => mayEnd_of_mem (mem_errors_of_parse hk))
  | command q | parameters q | checksum q | toBytes q =>
    cases h
    exact course_withFrame (mayEnd_of_missing rfl) (fun _ => mayEnd_of_mem) fun _ _ => .done _
  | setCommand q cmd =>
    cases h
    exact course_withFrame (mayEnd_of_missing rfl) (fun _ => mayEnd_of_mem) fun f hf =>
      course_withCommand (fun _ => mayEnd_of_mem) fun hcmd =>
        .store q (.encoded hcmd (.inr ⟨q, f, hf, rfl⟩))
  | setParameters q p =>
    cases h
    exact course_withFrame (mayEnd_of_missing rfl) (fun _ => mayEnd_of_mem) fun f hf =>
      course_withParams (fun _ => mayEnd_of_mem) fun hp => .store q (.newParams hf hp)
  | recomputeChecksum q =>
    cases h
    exact course_withFrame (mayEnd_of_missing rfl) (fun _ => mayEnd_of_mem) fun f hf =>
      .store q (.newChecksum hf)
  | rts =>
    cases h
    exact .setHs .idle (course_rtsWrite mayEnd_of_mem mayEnd_of_mem nofun)
  | rtr =>
    cases h
    exact .setHs .idle (course_rtrRead mayEnd_of_mem mayEnd_of_mem
      mayEnd_of_mem nofun)
  | txFrame q =>
    cases h
    exact course_txFrame (mayEnd_of_missing rfl) (fun _ => mayEnd_of_mem)
      mayEnd_of_mem
  | rxFrame d =>
    cases h
    exact course_rxFrame (mayEnd_of_missing rfl) mayEnd_of_mem
      fun raw k => mayEnd_of_received fun k hk => by simp [Instr.errors, hk]
  | sendFrame q =>
    cases h
    refine course_withFrame (mayEnd_of_missing rfl) (fun _ => mayEnd_of_mem) fun f hf => ?_
    refine .setHs .idle (course_rtsWrite mayEnd_of_mem mayEnd_of_mem ?_)
    rintro _ ⟨⟩
    exact ⟨mayEnd_of_missing rfl, fun _ => mayEnd_of_mem, mayEnd_of_mem⟩
  | recvFrame d =>
    cases h
    refine course_withSlot (mayEnd_of_missing rfl) (.setHs .idle (course_rtrRead mayEnd_of_mem
      mayEnd_of_mem mayEnd_of_mem ?_))
    rintro _ ⟨⟩
    exact ⟨mayEnd_of_missing rfl, mayEnd_of_mem,
      fun raw k => mayEnd_of_received (c := s.cfg) fun k hk => by simp [Instr.errors, hk]⟩
  | syncRts => cases h; exact .setHs .idle course_syncRtsWrite
  | ackRts =>
    cases h
    exact .setHs .sentSync (course_rtsRead mayEnd_of_mem mayEnd_of_mem nofun)
  | syncRtr =>
    cases h
    exact .setHs .idle (course_syncRtrRead mayEnd_of_mem mayEnd_of_mem)
  | ackRtr => cases h; exact .setHs .idle (course_rtrWrite mayEnd_of_mem nofun)
  | _ => cases h; exact course_recognize fun _ => mayEnd_of_mem

/-- Every resumed operation has a course, no claim being made of its errors. -/
theorem resumePhase_course (p : Phase) (s : State) : Course (fun _ => True) 2 s (resumePhase p s) := by
  cases p with
  | idle => exact .stay s
  | rtsWrite n => exact course_rtsWrite trivial trivial fun _ _ => ⟨fun _ => trivial, fun _ => trivial, trivial⟩
  | rtsRead n => exact course_rtsRead trivial trivial fun _ _ => ⟨fun _ => trivial, fun _ => trivial, trivial⟩
  | rtrRead n => exact course_rtrRead trivial trivial trivial fun _ _ => ⟨fun _ => trivial, trivial, fun _ _ _ _ => trivial⟩
  | rtrWrite n => exact course_rtrWrite trivial fun _ _ => ⟨fun _ => trivial, trivial, fun _ _ _ _ => trivial⟩
  | txWrite q => exact course_txFrame (fun _ => trivial) (fun _ => trivial) trivial
  | rxLength d => exact course_rxLength trivial fun _ _ _ _ => trivial
  | rxRest d => exact course_rxRest trivial fun _ _ _ _ => trivial
  | syncRtsWrite => exact course_syncRtsWrite
  | syncRtrRead => exact course_syncRtrRead trivial trivial

/-- What a step has done, once it has taken the request it runs, is the course of one operation. -/
theorem step_course {s t : State} (h : step s = .next t) :
    ∃ rs may, Course may 2 { s with requests := rs } t := by
  obtain ⟨-, -, he⟩ | ⟨-, he⟩ | ⟨r, rest, i, -, -, -, he⟩ | ⟨r, rest, e, -, -, -, he⟩ := step_cases s
  · cases he.symm.trans h; exact ⟨s.requests, fun _ => True, .stay s⟩
  · cases he.symm.trans h; exact ⟨s.requests, _, resumePhase_course s.phase s⟩
  · exact ⟨rest, _, exec_course (he.symm.trans h)⟩
  · rw [rejectRequest_next (he.symm.trans h)]; exact ⟨rest, fun _ => True, .fail trivial⟩

/-! ### What a course delivers, and what it leaves when it ends with an error -/

section Course

variable {may : ErrorKind → Prop} {n : Nat} {s t : State}

theorem course_delivers (h : Course may n s t) :
    ∃ ds, t.delivered = s.delivered ++ ds ∧ ds.length ≤ n ∧ ∀ k, .error k ∈ ds → may k := by
  induction h with
  | stay | block => exact ⟨[], by simp⟩
  | fail hk => exact ⟨[_], rfl, by simp, by simpa using hk⟩
  | done | store => exact ⟨[_], rfl, by simp, by simp⟩
  | setHs _ _ ih | setStaging _ _ ih => exact ih
  | write hw _ ih => obtain ⟨-, _, _, -, -, rfl⟩ := txWrite_some hw; exact ih
  | read hr _ ih => obtain ⟨_, -, rfl⟩ := rxRead_some hr; exact ih
  | andThen _ ih =>
    obtain ⟨ds, hds, hlen, hmay⟩ := ih
    exact ⟨.ok .none :: ds, by simp [hds], by simpa using hlen, by simpa using hmay⟩

theorem course_cfg (h : Course may n s t) : t.cfg = s.cfg := by
  induction h with
  | stay | block | fail | done | store => rfl
  | setHs _ _ ih | setStaging _ _ ih | andThen _ ih => exact ih
  | write hw _ ih => exact ih.trans (cfg_of_write hw)
  | read hr _ ih => exact ih.trans (cfg_of_read hr)

theorem Storable.congr {u : State} {f : Frame} (h : Storable u f) (hcfg : u.cfg = s.cfg) (hslots : u.slots = s.slots) :
    Storable s f := by
  have hslot (q : SlotIx) : u.slot q = s.slot q := State.slot_congr hslots q
  cases h with
  | parsed h => exact .parsed (hcfg ▸ h)
  | encoded hcmd hp => exact .encoded (hcfg ▸ hcmd) (by simpa only [hcfg, hslot] using hp)
  | newParams hf hp => exact .newParams ((hslot _).symm.trans hf) (hcfg ▸ hp)
  | newChecksum hf => exact .newChecksum ((hslot _).symm.trans hf)

end Course

/-- The slots of `t` are those of `s`, or `t` has ended with `OK` and one of them has been stored. -/
def StoresAtMostOnce (s t : State) : Prop :=
  t.slots = s.slots ∨ (t.status = 0 ∧ ∃ d f, Storable s f ∧ t.slots = s.slots.set d f)

theorem StoresAtMostOnce.congr {s u t : State} (h : StoresAtMostOnce u t) (hcfg : u.cfg = s.cfg) (hslots : u.slots = s.slots) :
    StoresAtMostOnce s t := by
  obtain h | ⟨hok, d, f, hf, h⟩ := h
  · exact .inl (h.trans hslots)
  · exact .inr ⟨hok, d, f, hf.congr hcfg hslots, hslots ▸ h⟩

theorem course_slots {may : ErrorKind → Prop} {n : Nat} {s t : State} (h : Course may n s t) : StoresAtMostOnce s t := by
  induction h with
  | stay | block | fail | done => exact .inl rfl
  | store d hf => exact .inr ⟨rfl, d.toNat, _, hf, rfl⟩
  | setHs _ _ ih | setStaging _ _ ih | andThen _ ih => exact ih.congr rfl rfl
  | write hw _ ih => obtain ⟨-, _, _, -, -, rfl⟩ := txWrite_some hw; exact ih.congr rfl rfl
  | read hr _ ih => obtain ⟨_, -, rfl⟩ := rxRead_some hr; exact ih.congr rfl rfl

theorem step_slots {s t : State} (h : step s = .next t) : StoresAtMostOnce s t := by
  obtain ⟨rs, may, hc⟩ := step_course h
  exact (course_slots hc).congr rfl rfl

theorem step_cfg {s t : State} (h : step s = .next t) : t.cfg = s.cfg := by
  obtain ⟨rs, may, hc⟩ := step_course h
  exact course_cfg (s := { s with requests := rs }) hc

/-- Settles O54: a slot is written only where the operation ends with `OK`. -/
theorem errorsChangeNoSlot : Obligations.ErrorsChangeNoSlot := by
  intro s t h hstatus
  obtain hslots | ⟨hok, -⟩ := step_slots h
  · exact hslots
  · exact absurd hok hstatus

/-- Settles O55. -/
theorem outcomesAreThoseOfTheMatrix : Obligations.OutcomesAreThoseOfTheMatrix := by
  intro i s t hw hmax hc h
  obtain ⟨ds, hds, hlen, hmay⟩ := course_delivers (exec_course h)
  exact ⟨ds, hds, hlen, fun k hk => hmay k hk hw hmax hc⟩

end Sys2Proof.Proofs
end

section
/-!
The invariant of a run (R22, R26, R101, R139): every step keeps the slot file consistent, `STATUS` an outcome code, and a waiting
operation where its pseudocode stands; with `PARSE_CHECK_COMMAND` on, every held command stays in `CMDSET`. -/
namespace Sys2Proof.Proofs

open Machine

variable {s t : State} {q d : SlotIx} {f : Frame}

/-! ### Stored frames -/

/-- Writing the checksum of a consistent frame again changes nothing. -/
theorem withChecksum_of_frameOk {c : Config} (hc : c.Wf) (hf : frameOk c f = true) : withChecksum (summedBytes f) = f := by
  obtain ⟨-, -, -, hsum⟩ := (frameOk_iff c f).1 hf
  obtain ⟨h4, -⟩ := length_of_frameOk hc hf
  exact withChecksum_summedBytes (by omega) hsum

theorem frameOk_of_storable (hc : s.cfg.Wf) (hm : s.slots.wf s.cfg = true) (h : Storable s f) : frameOk s.cfg f = true := by
  cases h with
  | parsed h => exact ((parse_ok_iff _ _ _).1 h).2.1
  | encoded _ hp =>
    obtain hp | ⟨q, g, hg, rfl⟩ := hp
    · exact frameOk_encodeFrame hc _ hp
    · exact frameOk_encodeFrame hc _ (length_paramsOf_le hc (frameOk_of_slot hm hg))
  | newParams _ hp => exact frameOk_encodeFrame hc _ hp
  | newChecksum hg =>
    have hok := frameOk_of_slot hm hg
    rwa [withChecksum_of_frameOk hc hok]

theorem vetted_of_storable (hs : s.Inv) (hcheck : s.cfg.parseCheckCommand = true) (hv : s.CommandsVetted)
    (h : Storable s f) : inCmdset s.cfg (byteAt f 1) = true := by
  cases h with
  | parsed h => exact ((parse_ok_iff _ _ _).1 h).2.2 hcheck
  | encoded hcmd _ => rw [byteAt_encodeFrame_one]; exact (inCmdset_iff _ _).2 hcmd
  | newParams hg _ => rw [byteAt_encodeFrame_one]; exact hv _ _ hg
  | newChecksum hg => rw [withChecksum_of_frameOk hs.cfg (frameOk_of_slot hs.memory hg)]; exact hv _ _ hg

/-- Settles O60: a slot holds what it held, or the one frame that the step has stored. -/
theorem stepKeepsCommandsVettedUnderTheSwitch : Obligations.StepKeepsCommandsVettedUnderTheSwitch := by
  intro s t hs hcheck hv h d f hf
  rw [step_cfg h]
  obtain hslots | ⟨-, n, g, hg, hslots⟩ := step_slots h
  · exact hv d f ((State.slot_congr hslots d).symm.trans hf)
  · rw [State.slot, hslots, List.getElem?_set] at hf
    split at hf
    · split at hf
      · cases hf; exact vetted_of_storable hs hcheck hv hg
      · cases hf
    · exact hv d f hf

/-! ### Where an operation waits -/

theorem phaseOk_complete (s : State) (x : Delivery) : (s.complete x).PhaseOk := rfl

theorem phaseOk_withSlot {k : State → State} (hk : slotExists s.cfg d = true → (k s).PhaseOk) : (withSlot d k s).PhaseOk := by
  obtain ⟨-, e⟩ | ⟨hd, e⟩ := withSlot_cases d k s <;> rw [e]
  · exact phaseOk_complete s _
  · exact hk hd

theorem phaseOk_withFrame {k : Frame → State → State}
    (hk : ∀ f, slotExists s.cfg q = true → s.slot q = some f → (k f s).PhaseOk) : (withFrame q k s).PhaseOk := by
  obtain ⟨-, e⟩ | ⟨-, -, e⟩ | ⟨f, hq, hf, e⟩ := withFrame_cases q k s <;> rw [e]
  · exact phaseOk_complete s _
  · exact phaseOk_complete s _
  · exact hk f hq hf

theorem phaseOk_withCommand {cmd : Byte} {k : State → State} (hk : (k s).PhaseOk) : (withCommand cmd k s).PhaseOk := by
  unfold withCommand
  split
  · exact hk
  · exact phaseOk_complete s _

theorem phaseOk_withParams {p : List Byte} {k : State → State} (hk : (k s).PhaseOk) : (withParams p k s).PhaseOk := by
  unfold withParams
  split
  · exact hk
  · exact phaseOk_complete s _

theorem phaseOk_newFrame (d : SlotIx) (cmd : Byte) (p : List Byte) (s : State) : (newFrame d cmd p s).PhaseOk :=
  phaseOk_withSlot fun _ => phaseOk_withCommand (phaseOk_withParams (phaseOk_complete _ _))

theorem phaseOk_storeParsed (d : SlotIx) (raw : List Byte) (s : State) : (storeParsed d raw s).PhaseOk := by
  obtain ⟨k, -, e⟩ | ⟨-, e⟩ := storeParsed_cases d raw s <;> rw [e]
  · exact phaseOk_complete _ _
  · exact phaseOk_complete _ _

theorem phaseOk_txFrame (hst : s.staging = []) : (txFrame q s).PhaseOk := by
  refine phaseOk_withFrame fun f hq hf => ?_
  split
  · exact ⟨hst, hq, fun h => nomatch hf.symm.trans h⟩
  · split
    · exact phaseOk_complete _ _
    · exact phaseOk_complete _ _

theorem phaseOk_rxRest (hd : slotExists s.cfg d = true) (hst : ∃ b, s.staging = [b]) : (rxRest d s).PhaseOk := by
  obtain ⟨b, hb⟩ := hst
  by_cases h2 : 2 ≤ (byteAt s.staging 0).toNat
  · cases hr : rxRead ((byteAt s.staging 0).toNat - 1) s with
    | none =>
      rw [rxRest_wait h2 hr]
      exact ⟨hd, b, hb, by simpa [hb, byteAt] using h2⟩
    | some p =>
      obtain ⟨r | _, t⟩ := p
      · rw [rxRest_bytes h2 hr]; exact phaseOk_storeParsed _ _ _
      · rw [rxRest_fault h2 hr]; exact phaseOk_complete _ _
  · rw [rxRest_none h2]; exact phaseOk_storeParsed _ _ _

theorem phaseOk_rxLength (hd : slotExists s.cfg d = true) (hst : s.staging = []) : (rxLength d s).PhaseOk := by
  cases hr : rxRead 1 s with
  | none => rw [rxLength_wait hr]; exact ⟨hst, hd⟩
  | some p =>
    obtain ⟨r | _, t⟩ := p
    · rw [rxLength_bytes hr]
      exact phaseOk_rxRest (cfg_of_read hr ▸ hd) (List.length_eq_one_iff.1 (rxRead_length hr))
    · rw [rxLength_fault hr]; exact phaseOk_complete _ _

theorem phaseOk_rtsRead {n : Option SlotIx} (h : (s.block (.rtsRead n)).PhaseOk) : (rtsRead n s).PhaseOk := by
  obtain hr | ⟨t, hr⟩ | ⟨r, t, hr, hne⟩ | ⟨t, hr⟩ := rxRead_one_cases Config.ackRts s
  · rw [rtsRead_wait hr]; exact h
  · rw [rtsRead_fault hr]; exact phaseOk_complete _ _
  · rw [rtsRead_desync hr hne]; exact phaseOk_complete _ _
  · rw [rtsRead_ack hr rfl]
    cases n with
    | none => exact phaseOk_complete _ _
    | some q => exact phaseOk_txFrame rfl

theorem phaseOk_rtsWrite {n : Option SlotIx} (h : (s.block (.rtsWrite n)).PhaseOk) : (rtsWrite n s).PhaseOk := by
  obtain hw | ⟨c, t, hw⟩ := txWrite_cases [s.cfg.syncRts] s
  · rw [rtsWrite_wait hw]; exact h
  · rw [rtsWrite_answered hw]
    obtain ⟨-, hst, hn⟩ := h
    obtain ⟨-, _, _, -, -, rfl⟩ := txWrite_some hw
    exact phaseOk_rtsRead ⟨rfl, hst, hn⟩

theorem phaseOk_rtrWrite {n : Option SlotIx} (h : (s.block (.rtrWrite n)).PhaseOk) : (rtrWrite n s).PhaseOk := by
  obtain hw | ⟨c, t, hw⟩ := txWrite_cases [s.cfg.ackRtr] s
  · rw [rtrWrite_wait hw]; exact h
  by_cases hc : c < 1
  · rw [rtrWrite_short hw hc]; exact phaseOk_complete _ _
  · rw [rtrWrite_taken hw hc]
    cases n with
    | none => exact phaseOk_complete _ _
    | some d => exact phaseOk_withSlot fun hd => phaseOk_rxLength hd rfl

theorem phaseOk_rtrRead {n : Option SlotIx} (h : (s.block (.rtrRead n)).PhaseOk) : (rtrRead n s).PhaseOk := by
  obtain hr | ⟨t, hr⟩ | ⟨r, t, hr, hne⟩ | ⟨t, hr⟩ := rxRead_one_cases Config.syncRtr s
  · rw [rtrRead_wait hr]; exact h
  · rw [rtrRead_fault hr]; exact phaseOk_complete _ _
  · rw [rtrRead_desync hr hne]; exact phaseOk_complete _ _
  · rw [rtrRead_sync hr rfl]
    obtain ⟨_, -, ht⟩ := rxRead_some hr
    exact phaseOk_rtrWrite (by rw [ht]; exact h)

theorem phaseOk_syncRtsWrite (hhs : s.hs = .idle) (hst : s.staging = []) : (syncRtsWrite s).PhaseOk := by
  obtain hw | ⟨c, t, hw⟩ := txWrite_cases [s.cfg.syncRts] s
  · rw [syncRtsWrite_wait hw]; exact ⟨hhs, hst⟩
  · rw [syncRtsWrite_answered hw]
    obtain ⟨-, _, _, -, -, rfl⟩ := txWrite_some hw
    exact hst

theorem phaseOk_syncRtrRead (hhs : s.hs = .idle) (hst : s.staging = []) : (syncRtrRead s).PhaseOk := by
  obtain hr | ⟨t, hr⟩ | ⟨r, t, hr, hne⟩ | ⟨t, hr⟩ := rxRead_one_cases Config.syncRtr s
  · rw [syncRtrRead_wait hr]; exact ⟨hhs, hst⟩
  · rw [syncRtrRead_fault hr]; exact phaseOk_complete _ _
  · rw [syncRtrRead_desync hr hne]; exact phaseOk_complete _ _
  · rw [syncRtrRead_sync hr rfl]; exact (staging_of_read hr).trans hst

/-- A resumed operation that waits again stands where its pseudocode does. -/
theorem phaseOk_resumePhase (h : s.PhaseOk) : (resumePhase s.phase s).PhaseOk := by
  have hwait : (s.block s.phase).PhaseOk := h
  cases hp : s.phase with
  | idle => exact h
  | rtsWrite n => exact phaseOk_rtsWrite (hp ▸ hwait)
  | rtsRead n => exact phaseOk_rtsRead (hp ▸ hwait)
  | rtrRead n => exact phaseOk_rtrRead (hp ▸ hwait)
  | rtrWrite n => exact phaseOk_rtrWrite (hp ▸ hwait)
  | txWrite q =>
    rw [hp] at hwait
    obtain ⟨hst, -, -⟩ := hwait
    exact phaseOk_txFrame hst
  | rxLength d =>
    rw [hp] at hwait
    obtain ⟨hst, hd⟩ := hwait
    exact phaseOk_rxLength hd hst
  | rxRest d =>
    rw [hp] at hwait
    obtain ⟨hd, b, hb, -⟩ := hwait
    exact phaseOk_rxRest hd ⟨b, hb⟩
  | syncRtsWrite =>
    rw [hp] at hwait
    obtain ⟨hhs, hst⟩ := hwait
    exact phaseOk_syncRtsWrite hhs hst
  | syncRtrRead =>
    rw [hp] at hwait
    obtain ⟨hhs, hst⟩ := hwait
    exact phaseOk_syncRtrRead hhs hst

/-- An instruction that waits stands where its pseudocode does: with no operation in progress nothing is staged. -/
theorem phaseOk_exec {i : Instr} (hidle : s.phase = .idle) (h : s.PhaseOk) (hexec : exec i s = .next t) : t.PhaseOk := by
  have hst : s.staging = [] := by
    rw [State.PhaseOk, hidle] at h
    exact h
  cases i with
  | new | versionRequest | testRequest => cases hexec; exact phaseOk_newFrame _ _ _ _
  | fromBytes d raw => cases hexec; exact phaseOk_withSlot fun _ => phaseOk_storeParsed _ _ _
  | command | parameters | checksum | toBytes | recomputeChecksum =>
    cases hexec; exact phaseOk_withFrame fun _ _ _ => phaseOk_complete _ _
  | setCommand q cmd => cases hexec; exact phaseOk_withFrame fun _ _ _ => phaseOk_withCommand (phaseOk_complete _ _)
  | setParameters q p => cases hexec; exact phaseOk_withFrame fun _ _ _ => phaseOk_withParams (phaseOk_complete _ _)
  | rts => cases hexec; exact phaseOk_rtsWrite ⟨rfl, hst, nofun⟩
  | rtr => cases hexec; exact phaseOk_rtrRead ⟨rfl, hst, nofun⟩
  | txFrame q => cases hexec; exact phaseOk_txFrame hst
  | rxFrame d => cases hexec; exact phaseOk_withSlot fun hd => phaseOk_rxLength hd hst
  | sendFrame q =>
    cases hexec
    refine phaseOk_withFrame fun f hq hf => phaseOk_rtsWrite ⟨rfl, hst, ?_⟩
    rintro _ ⟨⟩
    exact ⟨hq, fun hempty => nomatch hf.symm.trans hempty⟩
  | recvFrame d =>
    cases hexec
    refine phaseOk_withSlot fun hd => phaseOk_rtrRead ⟨rfl, hst, ?_⟩
    rintro _ ⟨⟩
    exact hd
  | syncRts => cases hexec; exact phaseOk_syncRtsWrite rfl hst
  | ackRts => cases hexec; exact phaseOk_rtsRead ⟨rfl, hst, nofun⟩
  | syncRtr => cases hexec; exact phaseOk_syncRtrRead rfl hst
  | ackRtr => cases hexec; exact phaseOk_rtrWrite ⟨rfl, hst, nofun⟩
  | _ => cases hexec; exact phaseOk_withCommand h

theorem step_phaseOk (hs : s.PhaseOk) (h : step s = .next t) : t.PhaseOk := by
  obtain ⟨-, -, he⟩ | ⟨-, he⟩ | ⟨r, rest, i, hidle, -, -, he⟩ | ⟨r, rest, e, -, -, -, he⟩ := step_cases s
  · cases he.symm.trans h; exact hs
  · cases he.symm.trans h; exact phaseOk_resumePhase hs
  · exact phaseOk_exec (s := { s with requests := rest }) hidle hs (he.symm.trans h)
  · rw [rejectRequest_next (he.symm.trans h)]; exact phaseOk_complete _ _

/-! ### `STATUS` and the slot file -/

theorem code_le (x : Delivery) : x.code.toNat ≤ 10 := by
  cases x with
  | ok => exact Nat.zero_le _
  | error k => cases k <;> decide

theorem moves_status {hsOk ioOk : Bool} {dst : Option SlotIx} (m : Moves hsOk ioOk dst s t) (hs : s.status.toNat ≤ 10) :
    t.status.toNat ≤ 10 := by
  induction m with
  | refl => exact hs
  | write _ _ h ih => obtain ⟨-, _, _, -, -, rfl⟩ := txWrite_some h; exact ih
  | read _ _ h ih => obtain ⟨_, -, rfl⟩ := rxRead_some h; exact ih
  | complete x => exact code_le x
  | setHs _ _ _ ih | setStaging _ _ ih | block _ _ ih | setSlot _ _ _ _ ih => exact ih

theorem step_status (hs : s.status.toNat ≤ 10) (h : step s = .next t) : t.status.toNat ≤ 10 := by
  obtain ⟨-, -, he⟩ | ⟨-, he⟩ | ⟨r, rest, i, -, -, -, he⟩ | ⟨r, rest, e, -, -, -, he⟩ := step_cases s
  · cases he.symm.trans h; exact hs
  · cases he.symm.trans h; exact moves_status (resumePhase_moves s.phase s) hs
  · exact moves_status (moves_of_exec (he.symm.trans h)) hs
  · rw [rejectRequest_next (he.symm.trans h)]; exact code_le _

theorem step_memory (hc : s.cfg.Wf) (hm : s.slots.wf s.cfg = true) (h : step s = .next t) : t.slots.wf t.cfg = true := by
  rw [step_cfg h]
  obtain hslots | ⟨-, n, f, hf, hslots⟩ := step_slots h
  · rwa [hslots]
  · rw [hslots]; exact memory_wf_set hm n (frameOk_of_storable hc hm hf)

/-- Settles O59: the four parts of the invariant, each kept by every step. -/
theorem stepKeepsTheInvariant : Obligations.StepKeepsTheInvariant := fun _ _ hs h =>
  { cfg := step_cfg h ▸ hs.cfg
    memory := step_memory hs.cfg hs.memory h
    status := step_status hs.status h
    phase := step_phaseOk hs.phase h }

/-! ### A silent transport -/

/-- The transport does not answer the call that an operation in progress at the given phase makes. -/
def Silent (s : State) : Phase → Prop
  | .idle => False
  | .rtsWrite _ | .rtrWrite _ | .syncRtsWrite => s.tx = []
  | .rtsRead _ | .rtrRead _ | .rxLength _ | .syncRtrRead => takeRead 1 s.rx = none
  | .txWrite q => slotExists s.cfg q = true ∧ (∃ f, s.slot q = some f) ∧ s.tx = []
  | .rxRest _ => 2 ≤ (byteAt s.staging 0).toNat ∧ takeRead ((byteAt s.staging 0).toNat - 1) s.rx = none

/-- Where the transport does not answer, the operation waits and nothing else changes (R195). -/
theorem resumePhase_silent {p : Phase} (h : Silent s p) : resumePhase p s = s.block p := by
  cases p with
  | idle => exact h.elim
  | rtsWrite n => exact rtsWrite_wait ((txWrite_none_iff _).2 h)
  | rtsRead n => exact rtsRead_wait ((rxRead_none_iff 1).2 h)
  | rtrRead n => exact rtrRead_wait ((rxRead_none_iff 1).2 h)
  | rtrWrite n => exact rtrWrite_wait ((txWrite_none_iff _).2 h)
  | txWrite q =>
    obtain ⟨hq, ⟨f, hf⟩, htx⟩ := h
    exact txFrame_wait hq hf ((txWrite_none_iff f).2 htx)
  | rxLength d => exact rxLength_wait ((rxRead_none_iff 1).2 h)
  | rxRest d =>
    obtain ⟨h2, htake⟩ := h
    exact rxRest_wait h2 ((rxRead_none_iff _).2 htake)
  | syncRtsWrite => exact syncRtsWrite_wait ((txWrite_none_iff _).2 h)
  | syncRtrRead => exact syncRtrRead_wait ((rxRead_none_iff 1).2 h)

/-- A transport with nothing more to answer with is silent at whatever call an operation waits, the invariant giving TX_FRAME
its frame and RX_FRAME its length byte. -/
theorem silent_of_exhausted (hs : s.PhaseOk) (hp : s.phase ≠ .idle) (hrx : s.rx = []) (htx : s.tx = []) :
    Silent s s.phase := by
  unfold State.PhaseOk at hs
  cases hph : s.phase with
  | idle => exact hp hph
  | rtsWrite | rtrWrite | syncRtsWrite => exact htx
  | rtsRead | rtrRead | rxLength | syncRtrRead => exact congrArg (takeRead 1) hrx
  | txWrite q =>
    simp only [hph] at hs
    obtain ⟨-, hq, hheld⟩ := hs
    exact ⟨hq, Option.ne_none_iff_exists'.1 hheld, htx⟩
  | rxRest d =>
    simp only [hph] at hs
    obtain ⟨-, b, hb, h2⟩ := hs
    have hL : byteAt s.staging 0 = b := by rw [hb]; rfl
    refine ⟨hL.symm ▸ h2, ?_⟩
    rw [hrx, hL]
    exact takeRead_wait _ [] (by simp only [List.length_nil]; omega)

/-- Settles O49: a waiting operation tries its call again, and waits again where it waited. -/
theorem silentTransportHangsTheOperation : Obligations.SilentTransportHangsTheOperation := by
  intro s hs hp hrx htx
  rw [step_resume hp, resumePhase_silent (silent_of_exhausted hs.phase hp hrx htx)]
  rfl

end Sys2Proof.Proofs
end

section
/-!
What operations do not depend on (R20, R25, R26, R138, R139). One simulation theorem: if two states are related by a relation that
the elementary changes keep, an operation run on both answers alike. Each independence statement is one such relation. -/
namespace Sys2Proof.Proofs

open Machine

/-! ### Simulations -/

/-- `R` relates two states in which an operation runs alike, `E` the two states that it comes to; `named` are the slots it may
use. Where the transport does not answer the first run, that one waits. -/
structure Sim (named : SlotIx → Prop) (R E : State → State → Prop) : Prop where
  cfg {s s' : State} : R s s' → s'.cfg = s.cfg
  staging {s s' : State} : R s s' → s'.staging = s.staging
  slot {s s' : State} {d : SlotIx} : named d → R s s' → s'.slot d = s.slot d
  setHs {s s' : State} (h : Handshake) : R s s' → R (s.setHs h) (s'.setHs h)
  setStaging {s s' : State} (l : List Byte) : R s s' → R (s.setStaging l) (s'.setStaging l)
  write {s s' t : State} {b : List Byte} {c : Nat} : R s s' → txWrite b s = some (c, t) →
    ∃ t', txWrite b s' = some (c, t') ∧ R t t'
  read {s s' t : State} {k : Nat} {r : ReadAnswer} : R s s' → rxRead k s = some (r, t) →
    ∃ t', rxRead k s' = some (r, t') ∧ R t t'
  wait {s s' : State} {p : Phase} : (∀ q, p = .txWrite q → named q) → R s s' → Silent s p →
    E (s.block p) (resumePhase p s')
  pause {s s' : State} : R s s' → E (s.block .idle) (s'.block .idle)
  andThen {s s' : State} (x : Delivery) : R s s' → R (s.complete x) (s'.complete x)
  complete {s s' : State} (x : Delivery) : R s s' → E (s.complete x) (s'.complete x)
  store {s s' : State} {d : SlotIx} (f : Frame) : named d → R s s' →
    E ((s.setSlot d f).complete (.ok .none)) ((s'.setSlot d f).complete (.ok .none))

section Operations

variable {named : SlotIx → Prop} {R E : State → State → Prop} {s s' : State} {q d : SlotIx}

theorem Sim.withSlot {k k' : State → State} (sim : Sim named R E) (h : R s s') (hk : E (k s) (k' s')) :
    E (withSlot d k s) (withSlot d k' s') := by
  cases hd : slotExists s.cfg d with
  | false => rw [withSlot_missing hd, withSlot_missing (sim.cfg h ▸ hd)]; exact sim.complete _ h
  | true => rw [withSlot_eq hd, withSlot_eq (sim.cfg h ▸ hd)]; exact hk

theorem Sim.withFrame {k k' : Frame → State → State} (sim : Sim named R E) (hq : named q) (h : R s s')
    (hk : ∀ f, slotExists s.cfg q = true → s.slot q = some f → E (k f s) (k' f s')) :
    E (withFrame q k s) (withFrame q k' s') := by
  have hslot := sim.slot hq h
  obtain ⟨hd, e⟩ | ⟨hd, hf, e⟩ | ⟨f, hd, hf, e⟩ := withFrame_cases q k s <;> rw [e]
  · rw [withFrame_missing (sim.cfg h ▸ hd)]; exact sim.complete _ h
  · rw [withFrame_empty (sim.cfg h ▸ hd) (hslot.trans hf)]; exact sim.complete _ h
  · rw [withFrame_eq (sim.cfg h ▸ hd) (hslot.trans hf)]; exact hk f hd hf

theorem Sim.withCommand {cmd : Byte} {k k' : State → State} (sim : Sim named R E) (h : R s s') (hk : E (k s) (k' s')) :
    E (withCommand cmd k s) (withCommand cmd k' s') := by
  by_cases hcmd : cmd ∈ s.cfg.cmdset
  · rw [withCommand_eq hcmd, withCommand_eq (sim.cfg h ▸ hcmd)]; exact hk
  · rw [withCommand_bad hcmd, withCommand_bad (sim.cfg h ▸ hcmd)]; exact sim.complete _ h

theorem Sim.withParams {p : List Byte} {k k' : State → State} (sim : Sim named R E) (h : R s s') (hk : E (k s) (k' s')) :
    E (withParams p k s) (withParams p k' s') := by
  rcases Nat.lt_or_ge s.cfg.maxParams p.length with hp | hp
  · rw [withParams_long hp, withParams_long (sim.cfg h ▸ hp)]; exact sim.complete _ h
  · rw [withParams_eq hp, withParams_eq (sim.cfg h ▸ hp)]; exact hk

theorem Sim.newFrame {cmd cmd' : Byte} {p p' : List Byte} (sim : Sim named R E) (hd : named d) (h : R s s')
    (hcmd : cmd' = cmd) (hp : p' = p) : E (newFrame d cmd p s) (newFrame d cmd' p' s') := by
  subst hcmd hp
  exact sim.withSlot h (sim.withCommand h (sim.withParams h (sim.store _ hd h)))

/-- A command name that passes changes neither state. -/
theorem Sim.recognize {cmd cmd' : Byte} (sim : Sim named R E) (h : R s s') (hcmd : cmd' = cmd) :
    E (recognize cmd s) (recognize cmd' s') ∨ (recognize cmd s = s ∧ recognize cmd' s' = s') := by
  subst hcmd
  by_cases hin : cmd' ∈ s.cfg.cmdset
  · exact .inr ⟨withCommand_eq hin, withCommand_eq (sim.cfg h ▸ hin)⟩
  · refine .inl ?_
    rw [Machine.recognize, withCommand_bad hin, withCommand_bad (sim.cfg h ▸ hin)]
    exact sim.complete _ h

theorem Sim.storeParsed (sim : Sim named R E) (hd : named d) (raw : List Byte) (h : R s s') :
    E (storeParsed d raw s) (storeParsed d raw s') := by
  obtain ⟨k, hk, e⟩ | ⟨hok, e⟩ := storeParsed_cases d raw s <;> rw [e]
  · rw [storeParsed_error (sim.cfg h ▸ hk)]; exact sim.complete _ h
  · rw [storeParsed_ok (sim.cfg h ▸ hok)]; exact sim.store raw hd h

theorem Sim.txFrame (sim : Sim named R E) (hq : named q) (h : R s s') : E (txFrame q s) (txFrame q s') := by
  cases hw : s.tx with
  | nil =>
    by_cases hheld : slotExists s.cfg q = true ∧ ∃ f, s.slot q = some f
    · obtain ⟨hx, f, hf⟩ := hheld
      rw [txFrame_wait hx hf ((txWrite_none_iff f).2 hw)]
      exact sim.wait (p := .txWrite q) (fun _ e => Phase.txWrite.inj e ▸ hq) h ⟨hx, ⟨f, hf⟩, hw⟩
    · exact sim.withFrame hq h fun f hx hf => absurd ⟨hx, f, hf⟩ hheld
  | cons room rest =>
    refine sim.withFrame hq h fun f _ _ => ?_
    have hwrite := txWrite_of_room f hw
    obtain ⟨t', hwrite', h'⟩ := sim.write h hwrite
    simp only [hwrite, hwrite']
    split
    · exact sim.complete _ h'
    · exact sim.complete _ h'

theorem Sim.rxRest (sim : Sim named R E) (hd : named d) (h : R s s') : E (rxRest d s) (rxRest d s') := by
  have hst := sim.staging h
  by_cases h2 : 2 ≤ (byteAt s.staging 0).toNat
  · have h2' : 2 ≤ (byteAt s'.staging 0).toNat := hst ▸ h2
    cases hr : rxRead ((byteAt s.staging 0).toNat - 1) s with
    | none =>
      rw [rxRest_wait h2 hr]
      exact sim.wait (p := .rxRest d) nofun h ⟨h2, (rxRead_none_iff _).1 hr⟩
    | some p =>
      obtain ⟨r | _, t⟩ := p
      · obtain ⟨t', hr', h'⟩ := sim.read h hr
        rw [rxRest_bytes h2 hr, rxRest_bytes h2' (hst ▸ hr'), sim.staging h']
        exact sim.storeParsed hd _ (sim.setStaging _ h')
      · obtain ⟨t', hr', h'⟩ := sim.read h hr
        rw [rxRest_fault h2 hr, rxRest_fault h2' (hst ▸ hr')]
        exact sim.complete _ h'
  · rw [rxRest_none h2, rxRest_none (hst ▸ h2), hst]
    exact sim.storeParsed hd _ h

theorem Sim.rxLength (sim : Sim named R E) (hd : named d) (h : R s s') : E (rxLength d s) (rxLength d s') := by
  cases hr : rxRead 1 s with
  | none => rw [rxLength_wait hr]; exact sim.wait (p := .rxLength d) nofun h ((rxRead_none_iff 1).1 hr)
  | some p =>
    obtain ⟨r | _, t⟩ := p
    · obtain ⟨t', hr', h'⟩ := sim.read h hr
      rw [rxLength_bytes hr, rxLength_bytes hr']
      exact sim.rxRest hd (sim.setStaging _ h')
    · obtain ⟨t', hr', h'⟩ := sim.read h hr
      rw [rxLength_fault hr, rxLength_fault hr']
      exact sim.complete _ h'

theorem Sim.rxFrame (sim : Sim named R E) (hd : named d) (h : R s s') : E (rxFrame d s) (rxFrame d s') :=
  sim.withSlot h (sim.rxLength hd h)

variable {n : Option SlotIx}

theorem Sim.rtsRead (sim : Sim named R E) (hn : ∀ q, n = some q → named q) (h : R s s') : E (rtsRead n s) (rtsRead n s') := by
  obtain hr | ⟨t, hr⟩ | ⟨r, t, hr, hne⟩ | ⟨t, hr⟩ := rxRead_one_cases Config.ackRts s
  · rw [rtsRead_wait hr]; exact sim.wait (p := .rtsRead n) nofun h ((rxRead_none_iff 1).1 hr)
  all_goals obtain ⟨t', hr', h'⟩ := sim.read h hr
  · rw [rtsRead_fault hr, rtsRead_fault hr']; exact sim.complete _ (sim.setHs _ h')
  · rw [rtsRead_desync hr hne, rtsRead_desync hr' (sim.cfg h' ▸ hne)]; exact sim.complete _ (sim.setHs _ h')
  · rw [rtsRead_ack hr rfl, rtsRead_ack hr' (by rw [sim.cfg h'])]
    cases n with
    | none => exact sim.complete _ (sim.setHs _ h')
    | some q => exact sim.txFrame (hn q rfl) (sim.andThen _ (sim.setHs _ h'))

theorem Sim.rtsWrite (sim : Sim named R E) (hn : ∀ q, n = some q → named q) (h : R s s') :
    E (rtsWrite n s) (rtsWrite n s') := by
  obtain hw | ⟨c, t, hw⟩ := txWrite_cases [s.cfg.syncRts] s
  · rw [rtsWrite_wait hw]; exact sim.wait (p := .rtsWrite n) nofun h ((txWrite_none_iff _).1 hw)
  · obtain ⟨t', hw', h'⟩ := sim.write h hw
    rw [rtsWrite_answered hw, rtsWrite_answered (sim.cfg h ▸ hw')]
    exact sim.rtsRead hn (sim.setHs _ h')

theorem Sim.rtrWrite (sim : Sim named R E) (hn : ∀ d, n = some d → named d) (h : R s s') :
    E (rtrWrite n s) (rtrWrite n s') := by
  obtain hw | ⟨c, t, hw⟩ := txWrite_cases [s.cfg.ackRtr] s
  · rw [rtrWrite_wait hw]; exact sim.wait (p := .rtrWrite n) nofun h ((txWrite_none_iff _).1 hw)
  obtain ⟨t', hw', h'⟩ := sim.write h hw
  by_cases hc : c < 1
  · rw [rtrWrite_short hw hc, rtrWrite_short (sim.cfg h ▸ hw') hc]; exact sim.complete _ (sim.setHs _ h')
  · rw [rtrWrite_taken hw hc, rtrWrite_taken (sim.cfg h ▸ hw') hc]
    cases n with
    | none => exact sim.complete _ (sim.setHs _ h')
    | some d => exact sim.rxFrame (hn d rfl) (sim.andThen _ (sim.setHs _ h'))

theorem Sim.rtrRead (sim : Sim named R E) (hn : ∀ d, n = some d → named d) (h : R s s') : E (rtrRead n s) (rtrRead n s') := by
  obtain hr | ⟨t, hr⟩ | ⟨r, t, hr, hne⟩ | ⟨t, hr⟩ := rxRead_one_cases Config.syncRtr s
  · rw [rtrRead_wait hr]; exact sim.wait (p := .rtrRead n) nofun h ((rxRead_none_iff 1).1 hr)
  all_goals obtain ⟨t', hr', h'⟩ := sim.read h hr
  · rw [rtrRead_fault hr, rtrRead_fault hr']; exact sim.complete _ (sim.setHs _ h')
  · rw [rtrRead_desync hr hne, rtrRead_desync hr' (sim.cfg h' ▸ hne)]; exact sim.complete _ (sim.setHs _ h')
  · rw [rtrRead_sync hr rfl, rtrRead_sync hr' (by rw [sim.cfg h'])]
    exact sim.rtrWrite hn h'

theorem Sim.syncRtsWrite (sim : Sim named R E) (h : R s s') : E (syncRtsWrite s) (syncRtsWrite s') := by
  obtain hw | ⟨c, t, hw⟩ := txWrite_cases [s.cfg.syncRts] s
  · rw [syncRtsWrite_wait hw]; exact sim.wait (p := .syncRtsWrite) nofun h ((txWrite_none_iff _).1 hw)
  · obtain ⟨t', hw', h'⟩ := sim.write h hw
    rw [syncRtsWrite_answered hw, syncRtsWrite_answered (sim.cfg h ▸ hw')]
    exact sim.pause (sim.setHs _ h')

theorem Sim.syncRtrRead (sim : Sim named R E) (h : R s s') : E (syncRtrRead s) (syncRtrRead s') := by
  obtain hr | ⟨t, hr⟩ | ⟨r, t, hr, hne⟩ | ⟨t, hr⟩ := rxRead_one_cases Config.syncRtr s
  · rw [syncRtrRead_wait hr]; exact sim.wait (p := .syncRtrRead) nofun h ((rxRead_none_iff 1).1 hr)
  all_goals obtain ⟨t', hr', h'⟩ := sim.read h hr
  · rw [syncRtrRead_fault hr, syncRtrRead_fault hr']; exact sim.complete _ (sim.setHs _ h')
  · rw [syncRtrRead_desync hr hne, syncRtrRead_desync hr' (sim.cfg h' ▸ hne)]; exact sim.complete _ (sim.setHs _ h')
  · rw [syncRtrRead_sync hr rfl, syncRtrRead_sync hr' (by rw [sim.cfg h'])]; exact sim.pause h'

/-- Every operation in progress runs alike on related states. -/
theorem Sim.resumePhase {p : Phase} (sim : Sim named R E) (hp : p ≠ .idle) (hn : ∀ d, named d) (h : R s s') :
    E (resumePhase p s) (resumePhase p s') := by
  cases p with
  | idle => exact absurd rfl hp
  | rtsWrite n => exact sim.rtsWrite (fun q _ => hn q) h
  | rtsRead n => exact sim.rtsRead (fun q _ => hn q) h
  | rtrRead n => exact sim.rtrRead (fun d _ => hn d) h
  | rtrWrite n => exact sim.rtrWrite (fun d _ => hn d) h
  | txWrite q => exact sim.txFrame (hn q) h
  | rxLength d => exact sim.rxLength (hn d) h
  | rxRest d => exact sim.rxRest (hn d) h
  | syncRtsWrite => exact sim.syncRtsWrite h
  | syncRtrRead => exact sim.syncRtrRead h

/-- Every instruction runs alike on related states, a command name that passes leaving both as they are. -/
theorem Sim.exec {i : Instr} {t : State} (sim : Sim named R E) (hn : ∀ d, i.slot? = some d → named d) (h : R s s')
    (hexec : exec i s = .next t) : ∃ t', exec i s' = .next t' ∧ (E t t' ∨ (t = s ∧ t' = s')) := by
  have hnone : ∀ q, (none : Option SlotIx) = some q → named q := nofun
  cases i with
  | new d cmd p => cases hexec; exact ⟨_, rfl, .inl (sim.newFrame (hn d rfl) h rfl rfl)⟩
  | versionRequest d => cases hexec; exact ⟨_, rfl, .inl (sim.newFrame (hn d rfl) h (by rw [sim.cfg h]) rfl)⟩
  | testRequest d =>
    cases hexec; exact ⟨_, rfl, .inl (sim.newFrame (hn d rfl) h (by rw [sim.cfg h]) (by rw [sim.cfg h]))⟩
  | fromBytes d raw => cases hexec; exact ⟨_, rfl, .inl (sim.withSlot h (sim.storeParsed (hn d rfl) raw h))⟩
  | command q | parameters q | checksum q | toBytes q =>
    cases hexec; exact ⟨_, rfl, .inl (sim.withFrame (hn q rfl) h fun _ _ _ => sim.complete _ h)⟩
  | setCommand q cmd =>
    cases hexec
    exact ⟨_, rfl, .inl (sim.withFrame (hn q rfl) h fun _ _ _ => sim.withCommand h (sim.store _ (hn q rfl) h))⟩
  | setParameters q p =>
    cases hexec
    exact ⟨_, rfl, .inl (sim.withFrame (hn q rfl) h fun _ _ _ => sim.withParams h (sim.store _ (hn q rfl) h))⟩
  | recomputeChecksum q =>
    cases hexec; exact ⟨_, rfl, .inl (sim.withFrame (hn q rfl) h fun _ _ _ => sim.store _ (hn q rfl) h)⟩
  | rts => cases hexec; exact ⟨_, rfl, .inl (sim.rtsWrite hnone (sim.setHs _ h))⟩
  | rtr => cases hexec; exact ⟨_, rfl, .inl (sim.rtrRead hnone (sim.setHs _ h))⟩
  | txFrame q => cases hexec; exact ⟨_, rfl, .inl (sim.txFrame (hn q rfl) h)⟩
  | rxFrame d => cases hexec; exact ⟨_, rfl, .inl (sim.rxFrame (hn d rfl) h)⟩
  | sendFrame q =>
    cases hexec
    exact ⟨_, rfl, .inl (sim.withFrame (hn q rfl) h fun _ _ _ => sim.rtsWrite hn (sim.setHs _ h))⟩
  | recvFrame d => cases hexec; exact ⟨_, rfl, .inl (sim.withSlot h (sim.rtrRead hn (sim.setHs _ h)))⟩
  | syncRts => cases hexec; exact ⟨_, rfl, .inl (sim.syncRtsWrite (sim.setHs _ h))⟩
  | ackRts => cases hexec; exact ⟨_, rfl, .inl (sim.rtsRead hnone (sim.setHs _ h))⟩
  | syncRtr => cases hexec; exact ⟨_, rfl, .inl (sim.syncRtrRead (sim.setHs _ h))⟩
  | ackRtr => cases hexec; exact ⟨_, rfl, .inl (sim.rtrWrite hnone (sim.setHs _ h))⟩
  | connection | getVersion => cases hexec; exact ⟨_, rfl, sim.recognize h (by rw [sim.cfg h])⟩
  | _ => cases hexec; exact ⟨_, rfl, sim.recognize h rfl⟩

end Operations

/-! ### Relations under which the two transports are in one state -/

/-- A simulation between states whose transports are in one state, so that both runs wait at the same calls. -/
structure SameStreams (named : SlotIx → Prop) (R E : State → State → Prop) : Prop where
  cfg {s s' : State} : R s s' → s'.cfg = s.cfg
  staging {s s' : State} : R s s' → s'.staging = s.staging
  rx {s s' : State} : R s s' → s'.rx = s.rx
  tx {s s' : State} : R s s' → s'.tx = s.tx
  slot {s s' : State} {d : SlotIx} : named d → R s s' → s'.slot d = s.slot d
  setHs {s s' : State} (h : Handshake) : R s s' → R (s.setHs h) (s'.setHs h)
  setStaging {s s' : State} (l : List Byte) : R s s' → R (s.setStaging l) (s'.setStaging l)
  io {s s' : State} (rx : List RxItem) (tx : List Nat) (es : List Event) : R s s' →
    R { s with rx := rx, tx := tx, trace := s.trace ++ es } { s' with rx := rx, tx := tx, trace := s'.trace ++ es }
  block {s s' : State} (p : Phase) : R s s' → E (s.block p) (s'.block p)
  andThen {s s' : State} (x : Delivery) : R s s' → R (s.complete x) (s'.complete x)
  complete {s s' : State} (x : Delivery) : R s s' → E (s.complete x) (s'.complete x)
  store {s s' : State} {d : SlotIx} (f : Frame) : named d → R s s' →
    E ((s.setSlot d f).complete (.ok .none)) ((s'.setSlot d f).complete (.ok .none))

end Sys2Proof.Proofs
end

section
/-!
The independence statements, each from its simulation: of the phase that a resumed operation leaves behind, of what `hs` held, of
`STATUS` and the records, of other slots, and of how long the transport took to answer. -/
namespace Sys2Proof.Proofs

open Machine

variable {named : SlotIx → Prop} {R E : State → State → Prop} {s s' t : State}

/-! ### Relations that keep the transports in one state -/

theorem SameStreams.silent {p : Phase} (h : SameStreams named R E) (hp : ∀ q, p = .txWrite q → named q) (hR : R s s')
    (hs : Silent s p) : Silent s' p := by
  have hrx := h.rx hR
  have htx := h.tx hR
  cases p with
  | idle => exact hs
  | rtsWrite | rtrWrite | syncRtsWrite => exact htx.trans hs
  | rtsRead | rtrRead | rxLength | syncRtrRead => exact (congrArg (takeRead 1) hrx).trans hs
  | txWrite q =>
    obtain ⟨hq, hf, hx⟩ := hs
    exact ⟨h.cfg hR ▸ hq, h.slot (hp q rfl) hR ▸ hf, htx.trans hx⟩
  | rxRest d =>
    obtain ⟨h2, htake⟩ := hs
    have hst := h.staging hR
    exact ⟨hst ▸ h2, by rw [hst, hrx]; exact htake⟩

/-- On related states the transport answers the same calls alike, and is silent at the same calls. -/
theorem SameStreams.sim (h : SameStreams named R E) : Sim named R E where
  cfg := h.cfg
  staging := h.staging
  slot := h.slot
  setHs := h.setHs
  setStaging := h.setStaging
  write {s s' t b c} hR hw := by
    obtain ⟨-, room, rest, hx, rfl, rfl⟩ := txWrite_some hw
    refine ⟨_, ?_, h.io s.rx rest [.write b (min room b.length)] hR⟩
    rw [txWrite_of_room b ((h.tx hR).trans hx), ← h.rx hR]
  read {s s' t k r} hR hr := by
    obtain ⟨rest, htake, rfl⟩ := rxRead_some hr
    refine ⟨_, ?_, h.io rest s.tx [.read k r] hR⟩
    rw [rxRead_of_take (h.rx hR ▸ htake), ← h.tx hR]
  wait hp hR hs := by
    rw [resumePhase_silent (h.silent hp hR hs)]
    exact h.block _ hR
  pause := h.block .idle
  andThen := h.andThen
  complete := h.complete
  store := h.store

/-! ### The phase -/

/-- Two states that differ at most in their phase. -/
def SameButPhase (s s' : State) : Prop := s.block .idle = s'.block .idle

theorem SameButPhase.map {α : Type} (g : State → α) (h : SameButPhase s s') : g (s.block .idle) = g (s'.block .idle) :=
  congrArg g h

/-- An operation in progress ends by writing the phase: the one it finds is lost. -/
theorem sameButPhase_streams : SameStreams (fun _ => True) SameButPhase Eq where
  cfg h := (h.map State.cfg).symm
  staging h := (h.map State.staging).symm
  rx h := (h.map State.rx).symm
  tx h := (h.map State.tx).symm
  slot {_ _ d} _ h := (h.map (State.slot · d)).symm
  setHs x h := h.map (State.setHs · x)
  setStaging l h := h.map (State.setStaging · l)
  io rx tx es h := h.map (α := State) fun u => { u with rx := rx, tx := tx, trace := u.trace ++ es }
  block p h := h.map (State.block · p)
  andThen x h := h.map (State.complete · x)
  complete x h := h.map (State.complete · x)
  store {_ _ d} f _ h := h.map fun u => (u.setSlot d f).complete (.ok .none)

theorem resumePhase_block {p : Phase} (hp : p ≠ .idle) (p' : Phase) (s : State) :
    resumePhase p (s.block p') = resumePhase p s :=
  sameButPhase_streams.sim.resumePhase (s := s.block p') (s' := s) hp (fun _ => trivial) rfl

/-- After a write by SYNC_RTS, ACK_RTS is RTS from its read on. -/
theorem exec_rts_of_syncRts (h : syncRtsWrite (s.setHs .idle) = t) (hidle : t.phase = .idle) :
    exec .rts s = exec .ackRts t := by
  obtain hw | ⟨c, u, hw⟩ := txWrite_cases [s.cfg.syncRts] (s.setHs .idle)
  · rw [← h, syncRtsWrite_wait hw] at hidle
    cases hidle
  · rw [syncRtsWrite_answered hw] at h
    have hrts : rtsWrite none (s.setHs .idle) = rtsRead none (u.setHs .sentSync) := rtsWrite_answered hw
    have hack : rtsRead none (t.setHs .sentSync) = rtsRead none (u.setHs .sentSync) := by
      rw [← h]
      exact resumePhase_block (p := .rtsRead none) nofun .idle (u.setHs .sentSync)
    exact congrArg Host.Outcome.next (hrts.trans hack.symm)

/-- After SYNC_RTR, RTR is ACK_RTR if the byte was the expected one, and has failed alike if not. -/
theorem exec_rtr_of_syncRtr (h : syncRtrRead (s.setHs .idle) = t) (hidle : t.phase = .idle) :
    (t.hs = .idle ∧ exec .rtr s = exec .ackRtr t) ∨ (t.hs = .failed ∧ exec .rtr s = .next t) := by
  obtain hr | ⟨u, hr⟩ | ⟨r, u, hr, hne⟩ | ⟨u, hr⟩ := rxRead_one_cases Config.syncRtr (s.setHs .idle)
  · rw [← h, syncRtrRead_wait hr] at hidle
    cases hidle
  · rw [syncRtrRead_fault hr] at h
    exact .inr ⟨by rw [← h]; rfl, congrArg Host.Outcome.next ((rtrRead_fault (n := none) hr).trans h)⟩
  · rw [syncRtrRead_desync hr hne] at h
    exact .inr ⟨by rw [← h]; rfl, congrArg Host.Outcome.next ((rtrRead_desync (n := none) hr hne).trans h)⟩
  · rw [syncRtrRead_sync hr rfl] at h
    obtain ⟨_, -, hu⟩ := rxRead_some hr
    have hhs : u.hs = .idle := by rw [hu]; rfl
    have hrtr : rtrRead none (s.setHs .idle) = rtrWrite none u := rtrRead_sync hr rfl
    have hack : rtrWrite none (t.setHs .idle) = rtrWrite none u := by
      rw [← h, ← hhs]
      exact resumePhase_block (p := .rtrWrite none) nofun .idle u
    exact .inl ⟨by rw [← h]; exact hhs, congrArg Host.Outcome.next (hrtr.trans hack.symm)⟩

/-- Settles O38. -/
theorem sentinelStepsComposeToTheExchange : Obligations.SentinelStepsComposeToTheExchange := by
  intro s t
  refine ⟨fun h hidle => exec_rts_of_syncRts (Host.Outcome.next.inj h) hidle, fun h hidle hhs => ?_, fun h hidle hhs => ?_⟩
  · obtain ⟨-, he⟩ | ⟨hfailed, -⟩ := exec_rtr_of_syncRtr (Host.Outcome.next.inj h) hidle
    · exact he
    · cases hhs.symm.trans hfailed
  · obtain ⟨hheld, -⟩ | ⟨-, he⟩ := exec_rtr_of_syncRtr (Host.Outcome.next.inj h) hidle
    · exact absurd hheld hhs
    · exact he

/-! ### What `hs` held -/

/-- Two runs begun with `hs₀` and `h` in `hs`: as soon as `hs` is written they are in one state. -/
def SameButHs (hs₀ h : Handshake) (t t' : State) : Prop := t' = t ∨ (t.hs = hs₀ ∧ t' = t.setHs h)

theorem sameButHs_map {hs₀ h : Handshake} {g : State → State} (hg : ∀ u : State, (g u).hs = u.hs)
    (hset : ∀ u : State, g (u.setHs h) = (g u).setHs h) (hR : SameButHs hs₀ h s s') : SameButHs hs₀ h (g s) (g s') := by
  obtain rfl | ⟨hs, rfl⟩ := hR
  · exact .inl rfl
  · exact .inr ⟨(hg s).trans hs, hset s⟩

theorem sameButHs_streams (hs₀ h : Handshake) : SameStreams (fun _ => True) (SameButHs hs₀ h) (SameButHs hs₀ h) where
  cfg := by rintro s s' (rfl | ⟨-, rfl⟩) <;> rfl
  staging := by rintro s s' (rfl | ⟨-, rfl⟩) <;> rfl
  rx := by rintro s s' (rfl | ⟨-, rfl⟩) <;> rfl
  tx := by rintro s s' (rfl | ⟨-, rfl⟩) <;> rfl
  slot := by rintro s s' d - (rfl | ⟨-, rfl⟩) <;> rfl
  setHs x := by rintro (rfl | ⟨-, rfl⟩) <;> exact .inl rfl
  setStaging l := sameButHs_map (g := (State.setStaging · l)) (fun _ => rfl) fun _ => rfl
  io rx tx es := sameButHs_map (g := fun u => { u with rx := rx, tx := tx, trace := u.trace ++ es }) (fun _ => rfl) fun _ => rfl
  block p := sameButHs_map (g := (State.block · p)) (fun _ => rfl) fun _ => rfl
  andThen x := sameButHs_map (g := (State.complete · x)) (fun _ => rfl) fun _ => rfl
  complete x := sameButHs_map (g := (State.complete · x)) (fun _ => rfl) fun _ => rfl
  store {_ _ d} f _ := sameButHs_map (g := fun u => (u.setSlot d f).complete (.ok .none)) (fun _ => rfl) fun _ => rfl

/-- With `E` the same relation, what an instruction comes to on related states is related. -/
theorem exec_related {i : Instr} (sim : Sim named R R) (hn : ∀ d, i.slot? = some d → named d) (h : R s s')
    (hexec : exec i s = .next t) : ∃ t', exec i s' = .next t' ∧ R t t' := by
  obtain ⟨t', hexec', hE | ⟨ht, ht'⟩⟩ := sim.exec hn h hexec
  · exact ⟨t', hexec', hE⟩
  · exact ⟨t', hexec', by rwa [ht, ht']⟩

/-- Settles O36: an instruction without a handshake keeps `hs` in both runs, so that they differ in it alone. -/
theorem nothingDependsOnHeldHandshakeState : Obligations.NothingDependsOnHeldHandshakeState := by
  intro i s t h hexec
  obtain ⟨t', hexec', hR⟩ := exec_related (sameButHs_streams s.hs h).sim (fun _ _ => trivial) (.inr ⟨rfl, rfl⟩) hexec
  rw [hexec']
  refine ⟨fun hno => ?_, ?_⟩
  · obtain rfl | ⟨-, rfl⟩ := hR
    · have hhs : t'.hs = h := moves_hs (hno ▸ moves_of_exec hexec')
      rw [← hhs]
      rfl
    · rfl
  · obtain rfl | ⟨hhs, rfl⟩ := hR
    · exact .inl rfl
    · exact .inr ⟨hhs, rfl⟩

/-! ### `STATUS` and the records -/

/-- Two runs, the first begun with the records `ds₀` and `es₀`, the second with `STATUS` at `c` and the records `ds` and `es`:
they have added the same to the records, and agree on all else, on `STATUS` as soon as an outcome is delivered. -/
def SameButRecords (ds₀ : List Delivery) (es₀ : List Event) (c : BitVec 4) (ds : List Delivery) (es : List Event)
    (t t' : State) : Prop :=
  ∃ (ds' : List Delivery) (es' : List Event), t.delivered = ds₀ ++ ds' ∧ t'.delivered = ds ++ ds'
    ∧ t.trace = es₀ ++ es' ∧ t'.trace = es ++ es' ∧ t'.status = (if ds' = [] then c else t.status)
    ∧ { t' with status := t.status, delivered := t.delivered, trace := t.trace } = t

section Records

variable {ds₀ ds : List Delivery} {es₀ es : List Event} {c : BitVec 4}

/-- A change that writes neither `STATUS` nor the records, and reads nothing of them. -/
theorem SameButRecords.map {g : State → State} (h : SameButRecords ds₀ es₀ c ds es s s')
    (hdel : ∀ u, (g u).delivered = u.delivered) (htrace : ∀ u, (g u).trace = u.trace) (hstatus : ∀ u, (g u).status = u.status)
    (hg : ∀ (u : State) c ds es, g { u with status := c, delivered := ds, trace := es }
      = { g u with status := c, delivered := ds, trace := es }) : SameButRecords ds₀ es₀ c ds es (g s) (g s') := by
  obtain ⟨ds', es', hds, hds', hes, hes', hst, hrest⟩ := h
  refine ⟨ds', es', (hdel s).trans hds, (hdel s').trans hds', (htrace s).trans hes, (htrace s').trans hes', ?_, ?_⟩
  · rw [hstatus, hstatus, hst]
  · rw [hstatus, hdel, htrace, ← hg, hrest]

theorem SameButRecords.complete (h : SameButRecords ds₀ es₀ c ds es s s') (x : Delivery) :
    SameButRecords ds₀ es₀ c ds es (s.complete x) (s'.complete x) := by
  obtain ⟨ds', es', hds, hds', hes, hes', -, hrest⟩ := h
  exact ⟨ds' ++ [x], es', by simp [hds], by simp [hds'], hes, hes', by simp, congrArg (State.complete · x) hrest⟩

theorem SameButRecords.io (h : SameButRecords ds₀ es₀ c ds es s s') (rx : List RxItem) (tx : List Nat) (l : List Event) :
    SameButRecords ds₀ es₀ c ds es { s with rx := rx, tx := tx, trace := s.trace ++ l }
      { s' with rx := rx, tx := tx, trace := s'.trace ++ l } := by
  obtain ⟨ds', es', hds, hds', hes, hes', hst, hrest⟩ := h
  exact ⟨ds', es' ++ l, hds, hds', by simp [hes], by simp [hes'], hst,
    congrArg (fun u : State => { u with rx := rx, tx := tx, trace := u.trace ++ l }) hrest⟩

theorem SameButRecords.agree {α : Type} (h : SameButRecords ds₀ es₀ c ds es s s') (π : State → α)
    (hπ : ∀ (u : State) c ds es, π { u with status := c, delivered := ds, trace := es } = π u) : π s' = π s := by
  obtain ⟨-, -, -, -, -, -, -, hrest⟩ := h
  rw [← hπ s' s.status s.delivered s.trace, hrest]

theorem sameButRecords_streams :
    SameStreams (fun _ => True) (SameButRecords ds₀ es₀ c ds es) (SameButRecords ds₀ es₀ c ds es) where
  cfg h := h.agree State.cfg fun _ _ _ _ => rfl
  staging h := h.agree State.staging fun _ _ _ _ => rfl
  rx h := h.agree State.rx fun _ _ _ _ => rfl
  tx h := h.agree State.tx fun _ _ _ _ => rfl
  slot {_ _ d} _ h := h.agree (State.slot · d) fun _ _ _ _ => rfl
  setHs x h := h.map (g := (State.setHs · x)) (fun _ => rfl) (fun _ => rfl) (fun _ => rfl) fun _ _ _ _ => rfl
  setStaging l h := h.map (g := (State.setStaging · l)) (fun _ => rfl) (fun _ => rfl) (fun _ => rfl) fun _ _ _ _ => rfl
  io rx tx l h := h.io rx tx l
  block p h := h.map (g := (State.block · p)) (fun _ => rfl) (fun _ => rfl) (fun _ => rfl) fun _ _ _ _ => rfl
  andThen x h := h.complete x
  complete x h := h.complete x
  store {_ _ d} f _ h :=
    (h.map (g := (State.setSlot · d f)) (fun _ => rfl) (fun _ => rfl) (fun _ => rfl) fun _ _ _ _ => rfl).complete _

end Records

/-- Settles O37. -/
theorem nothingDependsOnStatusOrHistory : Obligations.NothingDependsOnStatusOrHistory := by
  intro i s t c ds es hexec
  have hstart : SameButRecords s.delivered s.trace c ds es s { s with status := c, delivered := ds, trace := es } :=
    ⟨[], [], by simp, by simp, by simp, by simp, rfl, rfl⟩
  obtain ⟨t', hexec', ds', es', hrel⟩ := exec_related sameButRecords_streams.sim (fun _ _ => trivial) hstart hexec
  exact ⟨t', ds', es', hexec', hrel⟩

/-! ### Other slots -/

/-- The state with `o` in slot `e`. -/
def withSlotContent (e : SlotIx) (o : Option Frame) (s : State) : State := { s with slots := s.slots.set e.toNat o }

theorem slot_withSlotContent {e d : SlotIx} (hd : d ≠ e) (o : Option Frame) (s : State) :
    (withSlotContent e o s).slot d = s.slot d := by
  have hne : e.toNat ≠ d.toNat := fun h => hd (BitVec.eq_of_toNat_eq h.symm)
  simp [withSlotContent, State.slot, List.getElem?_set_ne hne]

theorem setSlot_withSlotContent {e d : SlotIx} (hd : d ≠ e) (o : Option Frame) (f : Frame) (s : State) :
    (withSlotContent e o s).setSlot d f = withSlotContent e o (s.setSlot d f) := by
  have hne : e.toNat ≠ d.toNat := fun h => hd (BitVec.eq_of_toNat_eq h.symm)
  simp [withSlotContent, State.setSlot, List.set_comm _ _ hne]

theorem otherSlot_streams (e : SlotIx) (o : Option Frame) :
    SameStreams (· ≠ e) (fun t t' => t' = withSlotContent e o t) (fun t t' => t' = withSlotContent e o t) where
  cfg h := h ▸ rfl
  staging h := h ▸ rfl
  rx h := h ▸ rfl
  tx h := h ▸ rfl
  slot hd h := h ▸ slot_withSlotContent hd o _
  setHs _ h := h ▸ rfl
  setStaging _ h := h ▸ rfl
  io _ _ _ h := h ▸ rfl
  block _ h := h ▸ rfl
  andThen _ h := h ▸ rfl
  complete _ h := h ▸ rfl
  store f hd h := by rw [h, setSlot_withSlotContent hd]; rfl

/-- Settles O53. -/
theorem otherSlotsAreNeitherReadNorWritten : Obligations.OtherSlotsAreNeitherReadNorWritten := by
  intro i s t e o he hexec
  have hn : ∀ d, i.slot? = some d → d ≠ e := fun d hd hde => he (hde ▸ hd)
  obtain ⟨t', hexec', rfl⟩ := exec_related (otherSlot_streams e o).sim hn rfl hexec
  exact hexec'

/-! ### More supplied from the start -/

/-- `t'` is what `t` comes to when `l` and `g` are supplied and its operation, if it waits, is taken up again. -/
def CatchesUp (l : List RxItem) (g : List Nat) (t t' : State) : Prop := t' = resumePhase t.phase (t.supply l g)

theorem supply_sim (l : List RxItem) (g : List Nat) :
    Sim (fun _ => True) (fun s s' => s' = s.supply l g) (CatchesUp l g) where
  cfg h := h ▸ rfl
  staging h := h ▸ rfl
  slot _ h := h ▸ rfl
  setHs _ h := h ▸ rfl
  setStaging _ h := h ▸ rfl
  write {s s' t b c} h hw := by
    obtain ⟨-, room, rest, hx, rfl, rfl⟩ := txWrite_some hw
    subst h
    exact ⟨_, txWrite_of_room b (by rw [State.supply_tx, hx, List.cons_append]), rfl⟩
  read {s s' t k r} h hr := by
    obtain ⟨rest, htake, rfl⟩ := rxRead_some hr
    subst h
    exact ⟨_, rxRead_of_take (takeRead_append htake l), rfl⟩
  wait {s s' p} _ h hs := by
    have hp : p ≠ .idle := by rintro rfl; exact hs
    rw [h]
    exact (resumePhase_block hp p (s.supply l g)).symm
  pause h := h ▸ rfl
  andThen _ h := h ▸ rfl
  complete _ h := h ▸ rfl
  store _ _ h := h ▸ rfl

/-- Settles O50: run with more supplied from the start, the operation catches up with the one that has waited. -/
theorem resumedOperationEqualsUninterrupted : Obligations.ResumedOperationEqualsUninterrupted := by
  intro i s t l g hexec hwaits hidle
  obtain ⟨t', hexec', h | ⟨rfl, -⟩⟩ := (supply_sim l g).exec (fun _ _ => trivial) rfl hexec
  · rw [hexec', h]
  · exact absurd hidle hwaits

end Sys2Proof.Proofs
end
